-- ==== Sys2Proof/Word.lean ====
section
/-!
DEFINITION. The two data types of the block (00_scope.md rule R11): a `u8` and a `u32`.
Addresses and lengths are unsigned numbers of `ADDR_W` bits; since `ADDR_W` is a parameter of the build
(rule R7) they are natural numbers here, and their bound is checked where they enter (WellFormed, Decode).
-/
namespace Sys2Proof

/-- A `u8` of rule R11: one byte of the buffer, or an operation code. -/
abbrev Byte := BitVec 8

/-- A `u32` of rule R11: an accumulator, a table entry, a row of a matrix, a GF(2) vector. -/
abbrev Word := BitVec 32

end Sys2Proof
end

