-- ==== Sys2Proof/Syntax.lean ====
section
/-!
DEFINITION. The instructions of the block: the 3 host commands of 30_encoding.md rule R63 and the 17 internal
operations of rule R64, one constructor for each row of spec/opcode_table.json.
-/
namespace Sys2Proof

/-- The select bit `t` of rule R64: `0` = long (`LT`, `LONG`), `1` = short (`ST`, `SHORT`). -/
inductive TableSel where
  | long
  | short
deriving DecidableEq, Repr

/-- The block width `N` of datapath SW (rules R7, R122) and the select bit `n` of rule R64: `0` = 8, `1` = 16 bytes. -/
inductive BlockWidth where
  | b8
  | b16
deriving DecidableEq, Repr

/-- The word width `W` of datapath HW (rules R7, R141) and the select bit `w` of rule R64: `0` = 4, `1` = 8 bytes. -/
inductive WordWidth where
  | w4
  | w8
deriving DecidableEq, Repr

/-- The number of bytes of a block (rule R7: `BLOCK` in 8, 16). -/
def BlockWidth.bytes : BlockWidth → Nat
  | .b8 => 8
  | .b16 => 16

/-- The number of bytes of a word (rule R7: `WORD` in 4, 8). -/
def WordWidth.bytes : WordWidth → Nat
  | .w4 => 4
  | .w8 => 8

/-- The instructions. The commands carry the operands of their request (rule R63); an internal operation carries
its select bit and nothing else (rule R65: "they have no encoded operands beyond the select bit of rule R64"). -/
inductive Instr where
  /-- `INIT`, rule R162. -/
  | init
  /-- `APPEND crc, addr, len`, rule R165. -/
  | append (crc : Word) (addr len : Nat)
  /-- `HWAVAIL`, rule R170. -/
  | hwavail
  /-- `MATVEC`, rule R81. -/
  | matvec
  /-- `MATSQ`, rule R82. -/
  | matsq
  /-- `OP1BIT`, rule R91. -/
  | op1bit
  /-- `ZEROS_OP`, rule R92. -/
  | zerosOp
  /-- `SHTAB_BUILD`, rule R101. -/
  | shtabBuild (t : TableSel)
  /-- `SHIFT_APPLY`, rule R104. -/
  | shiftApply (t : TableSel)
  /-- `VT_ROW0`, rule R111. -/
  | vtRow0
  /-- `VT_ROWK`, rule R112. -/
  | vtRowk
  /-- `VT_BUILD`, rule R114. -/
  | vtBuild
  /-- `XOR_F`, rule R123. -/
  | xorF
  /-- `BYTE_FOLD`, rule R121. -/
  | byteFold
  /-- `BLOCK_FOLD`, rule R122. -/
  | blockFold (n : BlockWidth)
  /-- `WORD_STEP`, rule R141. -/
  | wordStep (w : WordWidth)
  /-- `STREAM3`, rule R145. -/
  | stream3 (t : TableSel)
  /-- `RECOMBINE`, rule R150. -/
  | recombine (t : TableSel)
  /-- `SW_APPEND`, rule R127. -/
  | swAppend
  /-- `HW_APPEND`, rule R151. -/
  | hwAppend
deriving DecidableEq, Repr

/-- The three operations a host can issue (rule R60, class 1); every other one is internal (class 2). -/
def Instr.isCommand : Instr → Bool
  | .init | .append _ _ _ | .hwavail => true
  | .matvec | .matsq | .op1bit | .zerosOp | .shtabBuild _ | .shiftApply _ | .vtRow0 | .vtRowk | .vtBuild
  | .xorF | .byteFold | .blockFold _ | .wordStep _ | .stream3 _ | .recombine _ | .swAppend | .hwAppend => false

end Sys2Proof
end

