-- ==== Sys2Proof/Config.lean ====
section
/-!
DEFINITION. The build parameters of the block (00_scope.md rules R7, R9) and the free values of the model.
-/
namespace Sys2Proof

/-- `TABLE_SRC` of rule R7: the tables are built by the `INIT` that leaves mode `Uninitialized`, or are constants. -/
inductive TableSrc where
  | built
  | embedded
deriving DecidableEq, Repr

/-- The parameters of rule R7 that a build chooses; `POLY` is fixed (rule R8) and `HWCAP_IN` is an input (rule R27). -/
structure Config where
  /-- `BLOCK`, in 8, 16. -/
  block : BlockWidth
  /-- `WORD`, in 4, 8. -/
  word : WordWidth
  /-- `LONG`, bytes per stream in the long three-stream phase. -/
  long : Nat
  /-- `SHORT`, bytes per stream in the short three-stream phase. -/
  short : Nat
  /-- `ADDR_W`, the width in bits of an address and of a length. -/
  addrW : Nat
  /-- `TABLE_SRC`. -/
  tableSrc : TableSrc
deriving DecidableEq, Repr

/-- The defaults of rule R7. -/
def Config.standard : Config :=
  { block := .b16, word := .w8, long := 8192, short := 256, addrW := 64, tableSrc := .built }

/-- The number of addresses of the buffer address space, `2^ADDR_W` (rule R40). -/
abbrev Config.space (c : Config) : Nat := 2 ^ c.addrW

/-- A power of two. -/
def isPow2 (n : Nat) : Bool := n == 2 ^ Nat.log2 n

/-- The constraints of rule R9 (a), (b), (c). A configuration that breaks one is refused (U7). -/
def Config.wf (c : Config) : Bool :=
  isPow2 c.long && isPow2 c.short && c.long % c.short == 0 && c.short % c.word.bytes == 0
    && decide (3 * c.long < c.space)

/-- A 32-bit free value: what an accumulator holds after a word or block read at an address that breaks the
alignment precondition of rules R122, R141, R145 (assumption log entry 8). No body: nothing can evaluate it. -/
opaque freeWord : Nat → Word

/-- A free number: what `REM` holds after a fold of more bytes than `REM` counts, which breaks the precondition of
rules R121, R122 (assumption log entry 9). No body: nothing can evaluate it. -/
opaque freeNat : Nat → Nat

end Sys2Proof
end

