-- ==== Sys2Proof/Machine/Crc.lean ====
section
/-!
DEFINITION. The specification functions of 00_scope.md (rules R8, R11, R14, R15) and the shape of the tables
(10_state.md rules R28 to R31): what the operations of the block are measured against.
-/
namespace Sys2Proof

/-- `B` of rule R145: `LONG` when `t = 0`, `SHORT` when `t = 1`. -/
def Config.streamLen (c : Config) : TableSel → Nat
  | .long => c.long
  | .short => c.short

end Sys2Proof

namespace Sys2Proof.Machine

/-- `POLY` (rule R8): the Castagnoli polynomial in bit-reversed form. -/
def poly : Word := 0x82F63B78

/-- `F` of rule R11. -/
def allOnes : Word := 0xFFFFFFFF

/-- `byte(v, k)` of rule R11: bits `8k+7 .. 8k` of `v`. -/
def byteOf (v : Word) (k : Nat) : Byte := v.extractLsb' (8 * k) 8

/-- `zext_32` of a byte (rule R12). -/
def zext (d : Byte) : Word := d.setWidth 32

/-- `BitStep` of rule R14. -/
def bitStep (s : Word) : Word := if s.getLsbD 0 then (s >>> 1) ^^^ poly else s >>> 1

/-- `BitStep` applied `n` times. -/
def bitSteps : Nat → Word → Word
  | 0, s => s
  | n + 1, s => bitSteps n (bitStep s)

/-- `ByteFold` of rule R14. -/
def byteFoldSpec (s : Word) (d : Byte) : Word := bitSteps 8 (s ^^^ zext d)

/-- `RawFold` of rule R14. -/
def rawFold : Word → List Byte → Word
  | s, [] => s
  | s, d :: rest => rawFold (byteFoldSpec s d) rest

/-- `Z` of rule R14: append one zero byte. -/
def zeroByte (s : Word) : Word := byteFoldSpec s 0

/-- `Zn` of rule R14: append `n` zero bytes. -/
def zn : Word → Nat → Word
  | s, 0 => s
  | s, n + 1 => zn (zeroByte s) n

/-- `Crc` of rule R14: what `append(crc, data)` must return. -/
def crcOf (crc : Word) (data : List Byte) : Word := rawFold (crc ^^^ allOnes) data ^^^ allOnes

/-- `Combine` of rule R15; a specification function, no operation of the block (rule R68). -/
def combine (c1 c2 : Word) (n : Nat) : Word := zn c1 n ^^^ c2

/-- The values `f k, f (k+1), …`, `n` of them. -/
def listFrom {α : Type} (f : Nat → α) : Nat → Nat → List α
  | 0, _ => []
  | n + 1, k => f k :: listFrom f n (k + 1)

theorem listFrom_length {α : Type} (f : Nat → α) (n k : Nat) : (listFrom f n k).length = n := by
  induction n generalizing k with
  | zero => rfl
  | succ n ih => simp [listFrom, ih]

/-- The vector whose entry `i` is `f i`. -/
def tabulate {α : Type} (n : Nat) (f : Nat → α) : Vector α n :=
  ⟨⟨listFrom f n 0⟩, by simp [listFrom_length]⟩

/-- One row of a table: 256 entries of 32 bits. -/
abbrev Row := Vector Word 256

/-- A table of `r` rows: the value table has 16 (rule R28), a shift table 4 (rule R29). -/
abbrev Table (r : Nat) := Vector Row r

/-- A matrix buffer: 32 rows of 32 bits (rules R30, R80). -/
abbrev Mat := Vector Word 32

/-- `TAB[k][n]` (rule R13). Rows outside the table are never read (rule R50). -/
def entry {r : Nat} (t : Table r) (k : Nat) (n : Byte) : Word :=
  if h : k < r then t[k][n.toNat]'n.isLt else 0

/-- `TAB[k][n] <- f n` for every `n` (rule R13). -/
def setRow {r : Nat} (t : Table r) (k : Nat) (f : Byte → Word) : Table r :=
  tabulate r fun i => if i = k then tabulate 256 fun n => f (BitVec.ofNat 8 n)
    else tabulate 256 fun n => entry t i (BitVec.ofNat 8 n)

/-- Row `i` of a matrix; a matrix has the rows 0 to 31 (rule R80). -/
def matRow (m : Mat) (i : Nat) : Word := if h : i < 32 then m[i] else 0

/-- The table whose entry `k`, `n` is `f k n`. -/
def tableOf (r : Nat) (f : Nat → Byte → Word) : Table r :=
  tabulate r fun k => tabulate 256 fun n => f k (BitVec.ofNat 8 n)

/-- The closed form of the value table (rules R31, R113), its contents when `TABLE_SRC = EMBEDDED`. -/
def closedValueTable : Table 16 := tableOf 16 fun k n => zn (zext n) (k + 1)

/-- The closed form of the shift table for streams of `len` bytes (rules R31, R103), its contents when
`TABLE_SRC = EMBEDDED`. -/
def closedShiftTable (len : Nat) : Table 4 := tableOf 4 fun k n => zn (zext n <<< (8 * k)) len

/-- The value table after reset (rule R33; when `TABLE_SRC = BUILT` the spec gives none: assumption log entry 3). -/
def resetValueTable (c : Config) : Table 16 :=
  match c.tableSrc with
  | .built => tableOf 16 fun _ _ => 0
  | .embedded => closedValueTable

/-- A shift table after reset (rule R33; when `TABLE_SRC = BUILT` the spec gives none: assumption log entry 3). -/
def resetShiftTable (c : Config) (t : TableSel) : Table 4 :=
  match c.tableSrc with
  | .built => tableOf 4 fun _ _ => 0
  | .embedded => closedShiftTable (c.streamLen t)

/-- A matrix buffer after reset (rule R33: unspecified; assumption log entry 3). -/
def resetMat : Mat := tabulate 32 fun _ => 0

end Sys2Proof.Machine
end

