-- ==== Sys2Proof/Machine/Memory.lean ====
section
/-!
DEFINITION. The buffer address space (20_memory.md rules R40, R41): one byte per address, held as the list of the
cells whose byte is not the one an unlisted address reads as, in strictly rising order of address.
-/
namespace Sys2Proof.Machine

/-- The bytes of the host's memory (rule R40). -/
abbrev Memory := List Host.Cell

/-- What an address reads as that nothing has written (assumption log entry 4). -/
def blankByte : Byte := 0

/-- The byte at an address. -/
def Memory.read : Memory → Nat → Byte
  | [], _ => blankByte
  | (k, b) :: rest, a => if k = a then b else Memory.read rest a

/-- The `n` bytes at `a`, `a + 1`, …, in that order: the list `d[0..n-1]` of `MemRead` (rule R41). -/
def Memory.bytes (m : Memory) : Nat → Nat → List Byte
  | _, 0 => []
  | a, n + 1 => m.read a :: Memory.bytes m (a + 1) n

/-- Put a byte at an address (the host does so, rule R55; the block never does, rule R44). The canonical form is kept. -/
def Memory.write : Memory → Nat → Byte → Memory
  | [], a, b => if b = blankByte then [] else [(a, b)]
  | (k, v) :: rest, a, b =>
    if a < k then (if b = blankByte then (k, v) :: rest else (a, b) :: (k, v) :: rest)
    else if a = k then (if b = blankByte then rest else (a, b) :: rest)
    else (k, v) :: Memory.write rest a b

/-- The canonical form: addresses strictly rising, no cell that reads as an unlisted address does. -/
def Memory.wf : Memory → Bool
  | [] => true
  | (k, b) :: rest => b != blankByte && rest.all (fun c => decide (k < c.1)) && Memory.wf rest

/-- A range of addresses at which the platform has no memory (rule R49, U4). -/
structure Region where
  base : Nat
  size : Nat
deriving DecidableEq, Repr

/-- Whether some byte of `a .. a + n - 1` lies in the region. -/
def Region.meets (r : Region) (a n : Nat) : Bool :=
  decide (max r.base a < min (r.base + r.size) (a + n))

end Sys2Proof.Machine
end

