-- ==== Sys2Proof/Machine/State.lean ====
section
/-!
DEFINITION. The state of the machine (10_state.md) as plain data, what a step can stop with, and the state after reset
(rule R33).
-/
namespace Sys2Proof.Machine

/-- `MODE` (rule R21). Its fourth 2-bit code never occurs, so the type has three values (U8). -/
inductive Mode where
  | uninitialized
  | ready
  | faulted
deriving DecidableEq, Repr

/-- `PHASE` (rule R25): where the sequencer is within one `APPEND`. -/
inductive Phase where
  | idle
  | swPre
  | swHead
  | swBlock
  | swTail
  | swPost
  | hwPre
  | hwHead
  | hwLong
  | hwShort
  | hwWords
  | hwTail
  | hwPost
deriving DecidableEq, Repr

/-- The status codes of 60_exceptions.md rule R181. -/
inductive Status where
  | ok
  | notInitialized
  | illegalCmd
  | engineFaulted
  | badRange
deriving DecidableEq, Repr

/-- One of the two matrix buffers (rule R30). -/
inductive MatSel where
  | even
  | odd
deriving DecidableEq, Repr

/-- One of the three accumulators (rule R26). -/
inductive AccSel where
  | crc0
  | crc1
  | crc2
deriving DecidableEq, Repr

/-- The working registers of a context (rules R25, R26). `PTR` and `REM` are numbers: the one value of `PTR` that does
not fit `ADDR_W` bits is `2^ADDR_W`, with `REM = 0` (rule R43: "A model may keep `PTR` as a natural number"). -/
structure Context where
  crc0 : Word
  crc1 : Word
  crc2 : Word
  ptr : Nat
  rem : Nat
  phase : Phase
deriving DecidableEq, Repr

/-- The operands of an internal operation that its rule names and no register of the spec holds. The MODEL's own
latches, by which an internal operation can be run on its own (assumption log entry 5). -/
structure OpPort where
  /-- `mat` of `MATVEC` and `MATSQ` (whose `dst` is the other buffer), `dst` of `OP1BIT`. -/
  mat : MatSel
  /-- `vec` of `MATVEC`, `c` of `SHIFT_APPLY`. -/
  vec : Word
  /-- `k` of `VT_ROWK`, in 1..15: the row `k` is this number plus one. -/
  row : Fin 15
  /-- `L` of `ZEROS_OP`. -/
  zeros : Nat
  /-- `acc` of `WORD_STEP`. -/
  acc : AccSel
  /-- `a` of `WORD_STEP`. -/
  wordAddr : Nat
  /-- `crc` of `SW_APPEND` and `HW_APPEND`. -/
  crc : Word
  /-- `addr` of `SW_APPEND` and `HW_APPEND`. -/
  addr : Nat
  /-- `len` of `SW_APPEND` and `HW_APPEND`. -/
  len : Nat
deriving DecidableEq, Repr

/-- One use of the buffer read port (rules R40, R45): the address and the width in bytes. -/
structure Access where
  addr : Nat
  width : Nat
deriving DecidableEq, Repr

/-- A response (30_encoding.md rule R62). -/
structure Response where
  status : Status
  value : Word
deriving DecidableEq, Repr

/-- What the outside does to the block: a request packet (rule R61), reset (70_reset_and_hazards.md rule R200), a new
level on the pin `HWCAP_IN` (rule R27), a host write that fills a buffer (20_memory.md rule R55). -/
inductive Event where
  | request (packet : Nat)
  | reset
  | pin (level : Bool)
  | hostWrite (addr : Nat) (byte : Byte)
deriving DecidableEq, Repr

/-- The machine. -/
structure State where
  /-- The build parameters (rule R7). No step changes them. -/
  cfg : Config
  /-- `MODE`, rule R21. -/
  mode : Mode
  /-- `HWCAP`, rule R22. -/
  hwcap : Bool
  /-- `FCODE`, rule R23. -/
  fcode : BitVec 8
  /-- `VT`, rule R28. -/
  vt : Table 16
  /-- `LT`, rule R29. -/
  lt : Table 4
  /-- `ST`, rule R29. -/
  st : Table 4
  /-- `EVEN`, rule R30. -/
  even : Mat
  /-- `ODD`, rule R30. -/
  odd : Mat
  /-- `CRC0`, `CRC1`, `CRC2`, `PTR`, `REM`, `PHASE`, rules R25, R26. -/
  ctx : Context
  /-- `HWCAP_IN`, the input of rule R27. -/
  hwcapIn : Bool
  /-- The host's memory, rule R40. -/
  mem : Memory
  /-- Where the platform has no memory, rule R49 (U4). -/
  unmapped : List Region
  /-- What the outside does next, in the serial order of rules R54, R188, first first. -/
  events : List Event
  /-- The responses given so far, first first (rule R210). -/
  responses : List Response
  /-- The uses of the read port so far, first first (rule R45). -/
  reads : List Access
  /-- The operation code on the sequencer's port (rule R64). The MODEL's own (assumption log entry 5). -/
  uop : Option Byte
  /-- The operand latches of the internal operations. The MODEL's own (assumption log entry 5). -/
  port : OpPort
  /-- The result of `MATVEC`, `SHIFT_APPLY`, `SW_APPEND`, `HW_APPEND`. The MODEL's own (assumption log entry 5). -/
  result : Word
  /-- The buffer that `ZEROS_OP` returned, rule R92; the operand `op` of `SHTAB_BUILD`, rule R101. -/
  opMat : MatSel
  /-- How many free values have been used. The MODEL's own (assumption log entries 8, 9). -/
  freeCount : Nat
deriving DecidableEq, Repr

/-- Why the machine stops with a fault. -/
inductive Fault where
  /-- An access at or above `2^ADDR_W`, an address that does not exist (rule R40). Raised by an internal operation that
  is run on registers breaking the range precondition of rule R43, and by a host write there; never by a command.
  Safe: the spec gives such an access no effect. -/
  | outsideAddressSpace
deriving DecidableEq, Repr

/-- Why the machine has no next state. -/
inductive Refusal where
  /-- The instruction has no meaning yet; the name is its mnemonic. Raised by an arm of `exec`. Safe. -/
  | notModelled (mnemonic : String)
  /-- The configuration breaks rule R9. Raised by `step`. Safe: the spec has the model refuse it (R9, U7). -/
  | badConfig
  /-- The code on the sequencer's port is no operation of rule R64. Raised by `step`. Safe. -/
  | reservedUop (code : Byte)
  /-- A byte to be read is not backed by memory. Raised by every operation that reads the buffer. Safe: the spec has the
  model refuse it (R49, U4). -/
  | unreadableBuffer
  /-- `ZEROS_OP` with `L = 0`. Raised by `execZerosOp`. Safe: the spec has the model refuse it (R96, U2, D26). -/
  | zeroLengthOperator
  /-- A builder operation where `TABLE_SRC = EMBEDDED`: the builders' buffers do not exist there (R30). Raised by the
  meanings of `MATVEC`, `MATSQ`, `OP1BIT`, `ZEROS_OP`, `SHTAB_BUILD`, `VT_ROW0`, `VT_ROWK`, `VT_BUILD`. Safe. -/
  | builderAbsent
  /-- A table builder operation after initialisation: the tables are read-only then (R31, R54, R56). Raised by the
  meanings of `SHTAB_BUILD`, `VT_ROW0`, `VT_ROWK`, `VT_BUILD`. Safe. -/
  | tablesReadOnly
  /-- An operation of datapath HW in mode `Ready` with `HWCAP = 0`: the unit is absent or not to be used, and "no rule of
  this file is ever executed" (R140). Raised by the meanings of `WORD_STEP`, `STREAM3`, `RECOMBINE`, `HW_APPEND`; never
  by a command. Safe. -/
  | hwUnitAbsent
deriving DecidableEq, Repr

/-- A context no phase of which has run (rules R26, R33: `PHASE = IDLE`, the registers unspecified; assumption log
entry 3). -/
def Context.fresh : Context := { crc0 := 0, crc1 := 0, crc2 := 0, ptr := 0, rem := 0, phase := .idle }

/-- The model's operand latches after reset (assumption log entry 5). -/
def OpPort.fresh : OpPort :=
  { mat := .even, vec := 0, row := 0, zeros := 1, acc := .crc0, wordAddr := 0, crc := 0, addr := 0, len := 0 }

/-- The state after reset of a build with these parameters (rules R33, R200). What R33 leaves unspecified is zero (DESIGN
CHOICE, assumption log entry 3). The pin `HWCAP_IN` is an input that no reset touches (R27, R33); that it starts low
here is the model's choice (DESIGN CHOICE, assumption log entry 24). -/
def State.resetOf (c : Config) : State :=
  { cfg := c, mode := .uninitialized, hwcap := false, fcode := 0x00,
    vt := resetValueTable c, lt := resetShiftTable c .long, st := resetShiftTable c .short,
    even := resetMat, odd := resetMat, ctx := .fresh, hwcapIn := false,
    mem := [], unmapped := [], events := [], responses := [], reads := [],
    uop := none, port := .fresh, result := 0, opMat := .even, freeCount := 0 }

/-- The machine right after reset, in the default build. -/
def State.reset : State := State.resetOf Config.standard

end Sys2Proof.Machine
end

