-- ==== Sys2Proof/Machine/Flags.lean ====
section
/-!
DEFINITION. The block has no condition flags: the rule of every operation says "Flags written: none". Its control and
status are `MODE`, `HWCAP` and `FCODE` (10_state.md rules R21 to R24) and the status of a response
(60_exceptions.md rule R181); their encodings are here.
-/
namespace Sys2Proof.Machine

/-- The 2-bit code of `MODE` (rule R21). -/
def Mode.code : Mode → BitVec 2
  | .uninitialized => 0
  | .ready => 1
  | .faulted => 2

/-- The status codes (rule R181). -/
def Status.code : Status → Byte
  | .ok => 0x00
  | .notInitialized => 0x01
  | .illegalCmd => 0x02
  | .engineFaulted => 0x03
  | .badRange => 0x04

/-- The 40-bit response packet (rule R62): `status` in bits 7..0, `value` in bits 39..8. -/
def Response.encode (r : Response) : BitVec 40 := r.value ++ r.status.code

/-- `zext_32` of a flag (rule R62: "1 or 0"). -/
def flagWord (b : Bool) : Word := if b then 1 else 0

end Sys2Proof.Machine
end

