-- ==== Sys2Proof/Machine/Operands.lean ====
section
/-!
DEFINITION. The operand forms of the operations (30_encoding.md rules R64, R65; 10_state.md rules R26, R28 to R30): an
accumulator, a matrix buffer, a table chosen by the select bit `t`, and the range test on `addr` and `len`.
-/
namespace Sys2Proof.Machine

/-- An accumulator of a context (rule R26). -/
def Context.acc (c : Context) : AccSel → Word
  | .crc0 => c.crc0
  | .crc1 => c.crc1
  | .crc2 => c.crc2

/-- Write an accumulator of a context (rule R26). -/
def Context.setAcc (c : Context) : AccSel → Word → Context
  | .crc0, v => { c with crc0 := v }
  | .crc1, v => { c with crc1 := v }
  | .crc2, v => { c with crc2 := v }

/-- Write an accumulator of the context in service. -/
def State.setAcc (s : State) (a : AccSel) (v : Word) : State := { s with ctx := s.ctx.setAcc a v }

/-- An accumulator takes a free value (assumption log entry 8). -/
def State.freeAcc (s : State) (a : AccSel) : State :=
  { s with ctx := s.ctx.setAcc a (freeWord s.freeCount), freeCount := s.freeCount + 1 }

/-- Move the sequencer to a phase: `PHASE <- P` (rule R13). -/
def State.setPhase (s : State) (p : Phase) : State := { s with ctx := { s.ctx with phase := p } }

/-- The other matrix buffer. -/
def MatSel.other : MatSel → MatSel
  | .even => .odd
  | .odd => .even

/-- A matrix buffer (rule R30). -/
def State.mat (s : State) : MatSel → Mat
  | .even => s.even
  | .odd => s.odd

/-- Write a matrix buffer (rule R30). -/
def State.setMat (s : State) : MatSel → Mat → State
  | .even, m => { s with even := m }
  | .odd, m => { s with odd := m }

/-- The shift table of the select bit `t` (rule R64). -/
def State.shiftTable (s : State) : TableSel → Table 4
  | .long => s.lt
  | .short => s.st

/-- Write the shift table of the select bit `t`. -/
def State.setShiftTable (s : State) : TableSel → Table 4 → State
  | .long, t => { s with lt := t }
  | .short, t => { s with st := t }

/-- The row `k` of `VT_ROWK` (rule R112), in 1..15. -/
def OpPort.rowIndex (p : OpPort) : Nat := p.row.val + 1

/-- The range precondition of an `APPEND` (rule R43), computed without truncation (rule R185). -/
def State.inRange (s : State) (addr len : Nat) : Bool := decide (addr + len ≤ s.cfg.space)

/-- Whether every byte of `a .. a + n - 1` is backed by memory (rule R49, U4). -/
def State.mapped (s : State) (a n : Nat) : Bool := s.unmapped.all fun r => !r.meets a n

end Sys2Proof.Machine
end

