-- ==== Sys2Proof/Machine/Ops.lean ====
section
/-!
DEFINITION. The operations that the meanings share: answering a request, taking the fatal fault and leaving it by
reset (60_exceptions.md rule R182, 70_reset_and_hazards.md rule R200), the acceptance test (46_dispatcher.md rule
R164), the buffer read port (20_memory.md rule R41), and the registers that every fold moves (10_state.md rule R26).
-/
namespace Sys2Proof.Machine

/-- What a step or an operation ends in. -/
abbrev Result := Host.Outcome State Fault Refusal

/-- Go on with the next state, if there is one. -/
def andThen (r : Result) (k : State → Result) : Result :=
  match r with
  | .next s => k s
  | .fault f => .fault f
  | .refused q => .refused q

/-- `respond(status, value)` (rule R62). -/
def State.respond (s : State) (st : Status) (v : Word) : State :=
  { s with responses := s.responses ++ [{ status := st, value := v }] }

/-- `raise Fault(code)` (rule R182): the taking of the one exception the block has. -/
def State.raiseFault (s : State) (st : Status) : State :=
  { s with fcode := st.code, mode := .faulted }.respond st 0

/-- Reset, the only way out of mode `Faulted` (rules R186, R200): every piece of the block's state goes to its reset
value. The parameters, the pin, the host's memory and what the host does next are not the block's; the responses, the
reads and the count of free values are a record of the run. -/
def State.takeReset (s : State) : State :=
  { State.resetOf s.cfg with
    hwcapIn := s.hwcapIn, mem := s.mem, unmapped := s.unmapped, events := s.events,
    responses := s.responses, reads := s.reads, freeCount := s.freeCount }

/-- The answer to a request whose `op` is reserved, in the order of the tests (rules R164, R184, R186, R188): in mode
`Faulted` it is `ENGINE_FAULTED`. -/
def State.rejectRequest (s : State) : State :=
  match s.mode with
  | .faulted => s.respond .engineFaulted 0
  | .uninitialized | .ready => s.respond .illegalCmd 0

/-- Tests (1) and (3) of rule R164, which `APPEND` and `HWAVAIL` undergo: go on only in mode `Ready`. -/
def whenReady (s : State) (k : Result) : Result :=
  match s.mode with
  | .faulted => .next (s.respond .engineFaulted 0)
  | .uninitialized => .next (s.raiseFault .notInitialized)
  | .ready => k

/-- A host write that fills a buffer (rule R55); the host's memory has no byte outside the address space (rule R40). A
write into a region that the platform does not back is stored as any other, and no operation can read it there (the spec
is silent; DESIGN CHOICE, assumption log entry 10). -/
def State.takeHostWrite (s : State) (a : Nat) (b : Byte) : Result :=
  if a < s.cfg.space then .next { s with mem := s.mem.write a b } else .fault .outsideAddressSpace

/-- Use the read port on the bytes `a .. a + n - 1`, in the accesses `l`: the address space must hold them (rule R40)
and the platform must back them (rule R49). -/
def withAccess (s : State) (a n : Nat) (l : List Access) (k : State → Result) : Result :=
  if a + n ≤ s.cfg.space then
    if s.mapped a n then k { s with reads := s.reads ++ l } else .refused .unreadableBuffer
  else .fault .outsideAddressSpace

/-- `MemRead(a, n)` (rule R41), one use of the read port; the bytes go to `k`. -/
def withRead (s : State) (a n : Nat) (k : List Byte → State → Result) : Result :=
  withAccess s a n [{ addr := a, width := n }] fun t => k (t.mem.bytes a n) t

/-- `PTR <- PTR + n ; REM <- REM - n`. A rule has `REM >= n` as its precondition; where that is broken the rule states
no value for `REM`, and it is free (assumption log entry 9). -/
def State.advance (s : State) (n : Nat) : State :=
  if n ≤ s.ctx.rem then { s with ctx := { s.ctx with ptr := s.ctx.ptr + n, rem := s.ctx.rem - n } }
  else { s with
    ctx := { s.ctx with ptr := s.ctx.ptr + n, rem := freeNat s.freeCount % s.cfg.space },
    freeCount := s.freeCount + 1 }

/-- An accumulator takes the value of a read of width `w` at `a`: `v` where the read is aligned (the precondition of
rules R122, R141), else a free value (assumption log entry 8). -/
def State.setAligned (s : State) (acc : AccSel) (a w : Nat) (v : Word) : State :=
  if a % w = 0 then s.setAcc acc v else s.freeAcc acc

/-- The builders exist only where `TABLE_SRC = BUILT` (rule R30). An operation that needs no more than that runs from the
port in every mode, though the block uses it only while `INIT` runs (DESIGN CHOICE, assumption log entry 5). -/
def withBuilder (s : State) (k : Result) : Result :=
  match s.cfg.tableSrc with
  | .built => k
  | .embedded => .refused .builderAbsent

/-- A table is written only before initialisation has completed (rules R31, R54, R56). -/
def withTableWrite (s : State) (k : Result) : Result :=
  withBuilder s (match s.mode with
    | .uninitialized => k
    | .ready | .faulted => .refused .tablesReadOnly)

/-- Datapath HW is absent, or not to be used (rules R140, R165): `HWCAP = 0` in mode `Ready`, the mode in which the flag
has a meaning (rule R22). -/
def State.hwUnitAbsent (s : State) : Bool :=
  match s.mode with
  | .ready => !s.hwcap
  | .uninitialized | .faulted => false

/-- With `HWCAP = 0` no rule of 45_hardware_engine.md is executed (rule R140; assumption log entry 23). -/
def withHwUnit (s : State) (k : Result) : Result := if s.hwUnitAbsent then .refused .hwUnitAbsent else k

end Sys2Proof.Machine
end

