-- ==== Sys2Proof/Machine/Matrix.lean ====
section
/-!
DEFINITION. The GF(2) Matrix Engine (40_gf2_matrix.md): `MATVEC`, `MATSQ`.
-/
namespace Sys2Proof.Machine

/-- The XOR of the rows `0 .. n - 1` of `mat` that the bits of `vec` select (rule R81, the loop after `n` turns). -/
def matvecUpTo (mat : Mat) (vec : Word) : Nat → Word
  | 0 => 0
  | n + 1 =>
    if vec.getLsbD n then matvecUpTo mat vec n ^^^ matRow mat n else matvecUpTo mat vec n

/-- `MATVEC(mat, vec)` (rule R81). -/
def matvec (mat : Mat) (vec : Word) : Word := matvecUpTo mat vec 32

/-- The matrix `MATSQ` writes: row `n` is `MATVEC(mat, mat[n])` (rule R82). -/
def matsqOf (mat : Mat) : Mat := tabulate 32 fun n => matvec mat (matRow mat n)

/-- `MATSQ(dst, mat)` with `mat` one buffer and `dst` the other (rule R82: "`dst` and `mat` must be different
buffers"). -/
def State.matsq (s : State) (mat : MatSel) : State := s.setMat mat.other (matsqOf (s.mat mat))

/-- `MATVEC` (rule R81) of the latched operands. From the port it runs in every mode, though the section says that the
block uses it only while `INIT` runs (DESIGN CHOICE, assumption log entry 5). -/
def execMatvec (s : State) : Result :=
  withBuilder s (.next { s with result := matvec (s.mat s.port.mat) s.port.vec })

/-- `MATSQ` (rule R82) of the latched source; in every mode, as `MATVEC` (DESIGN CHOICE, assumption log entry 5). -/
def execMatsq (s : State) : Result := withBuilder s (.next (s.matsq s.port.mat))

end Sys2Proof.Machine
end

