-- ==== Sys2Proof/Machine/ShiftOperator.lean ====
section
/-!
DEFINITION. The Shift Operator Builder (41_shift_operator.md): `OP1BIT`, `ZEROS_OP`.
-/
namespace Sys2Proof.Machine

/-- The one-zero-bit operator `OP1` (rule R91). -/
def op1Mat : Mat := tabulate 32 fun n => if n = 0 then poly else (1 : Word) <<< (n - 1)

/-- `OP1BIT(dst)` (rule R91). -/
def State.op1bit (s : State) (dst : MatSel) : State := s.setMat dst op1Mat

/-- Step 3 of `ZEROS_OP` (rule R92), with a bound on its turns: each turn halves `L` at least once, so
`bitlen(L)` turns are enough (rule R93). The buffer returned is named in `opMat`. -/
def State.zerosLoop (s : State) : Nat → Nat → State
  | 0, _ => s
  | fuel + 1, len =>
    let s := s.matsq .odd
    let len := len >>> 1
    if len = 0 then { s with opMat := .even }
    else
      let s := s.matsq .even
      let len := len >>> 1
      if len = 0 then { s with opMat := .odd } else State.zerosLoop s fuel len

/-- `bitlen(L)` (rule R93). -/
def bitlen (len : Nat) : Nat := if len = 0 then 0 else Nat.log2 len + 1

/-- `ZEROS_OP(L)` (rule R92), for `L >= 1`. -/
def State.zerosOp (s : State) (len : Nat) : State :=
  (((s.op1bit .odd).matsq .odd).matsq .even).zerosLoop (bitlen len) len

/-- `OP1BIT` (rule R91) into the latched buffer. From the port it runs in every mode, though the section says that the
block runs it only during `INIT` (DESIGN CHOICE, assumption log entry 5). -/
def execOp1bit (s : State) : Result := withBuilder s (.next (s.op1bit s.port.mat))

/-- `ZEROS_OP` (rule R92) of the latched length; `L = 0` is refused (rule R96). In every mode, as
`OP1BIT` (DESIGN CHOICE, assumption log entry 5). -/
def execZerosOp (s : State) : Result :=
  withBuilder s
    (if s.port.zeros = 0 then .refused .zeroLengthOperator else .next (s.zerosOp s.port.zeros))

end Sys2Proof.Machine
end

