-- ==== Sys2Proof/Machine/ShiftTable.lean ====
section
/-!
DEFINITION. The Shift Table Builder and the application of a shift table (42_shift_table.md): `SHTAB_BUILD`,
`SHIFT_APPLY`.
-/
namespace Sys2Proof.Machine

/-- The table `SHTAB_BUILD` writes: `tab[k][n] = MATVEC(op, zext_32(n) << 8k)` (rule R101). -/
def shtabOf (op : Mat) : Table 4 := tableOf 4 fun k n => matvec op (zext n <<< (8 * k))

/-- `SHTAB_BUILD(tab, op)` with `op` the result of `ZEROS_OP` (rule R101). -/
def State.shtabBuild (s : State) (t : TableSel) : State := s.setShiftTable t (shtabOf (s.mat s.opMat))

/-- `SHIFT_APPLY(tab, c)` (rule R104). -/
def shiftApply (tab : Table 4) (c : Word) : Word :=
  entry tab 0 (byteOf c 0) ^^^ entry tab 1 (byteOf c 1) ^^^ entry tab 2 (byteOf c 2) ^^^ entry tab 3 (byteOf c 3)

/-- `SHTAB_BUILD` (rule R101). The rule's `op` is the result of `ZEROS_OP`; run alone where none has run, the operation
takes what the buffer named by `opMat` holds (DESIGN CHOICE, assumption log entry 25). -/
def execShtabBuild (t : TableSel) (s : State) : Result := withTableWrite s (.next (s.shtabBuild t))

/-- `SHIFT_APPLY` (rule R104) of the latched operand. -/
def execShiftApply (t : TableSel) (s : State) : Result :=
  .next { s with result := shiftApply (s.shiftTable t) s.port.vec }

end Sys2Proof.Machine
end

