-- ==== Sys2Proof/Machine/Software.lean ====
section
/-!
DEFINITION. The operations of datapath SW (44_software_engine.md): `XOR_F`, `BYTE_FOLD`, `BLOCK_FOLD`. Their sequence
`SW_APPEND` is in Sequencer.lean.
-/
namespace Sys2Proof.Machine

/-- `XOR_F` (rule R123). -/
def State.xorF (s : State) : State := s.setAcc .crc0 (s.ctx.crc0 ^^^ allOnes)

/-- The new accumulator of `BYTE_FOLD` (rule R121): `VT[0][(CRC0 ^ zext_32(d)) & 0xFF] ^ (CRC0 >> 8)`. -/
def byteFoldValue (vt : Table 16) (crc : Word) (d : Byte) : Word :=
  entry vt 0 (byteOf (crc ^^^ zext d) 0) ^^^ (crc >>> 8)

/-- `BYTE_FOLD` (rule R121). -/
def byteFold (s : State) : Result :=
  withRead s s.ctx.ptr 1 fun d t =>
    .next ((t.setAcc .crc0 (byteFoldValue t.vt t.ctx.crc0 (d.headD 0))).advance 1)

/-- `x[j]` of rule R122: the first four bytes of the block meet the bytes of the old state. -/
def blockIndex (crc : Word) (d : List Byte) (j : Nat) : Byte :=
  if j < 4 then d.getD j 0 ^^^ byteOf crc j else d.getD j 0

/-- The XOR of the first `m` of the lookups `VT[n-1-j][x[j]]` of rule R122. -/
def blockLookups (vt : Table 16) (n : Nat) (crc : Word) (d : List Byte) : Nat → Word
  | 0 => 0
  | m + 1 => blockLookups vt n crc d m ^^^ entry vt (n - 1 - m) (blockIndex crc d m)

/-- The new accumulator of `BLOCK_FOLD` (rule R122), `n` the block width. -/
def blockFoldValue (vt : Table 16) (n : Nat) (crc : Word) (d : List Byte) : Word :=
  blockLookups vt n crc d n

/-- `BLOCK_FOLD` of a block width (rule R122; its operands are aligned: R46). -/
def blockFold (n : BlockWidth) (s : State) : Result :=
  withRead s s.ctx.ptr n.bytes fun d t =>
    .next ((t.setAligned .crc0 t.ctx.ptr n.bytes (blockFoldValue t.vt n.bytes t.ctx.crc0 d)).advance n.bytes)

/-- `XOR_F` (rule R123). -/
def execXorF (s : State) : Result := .next s.xorF

/-- `BYTE_FOLD` (rule R121). -/
def execByteFold (s : State) : Result := byteFold s

/-- `BLOCK_FOLD` (rule R122) of the width its select bit names (rule R64). -/
def execBlockFold (n : BlockWidth) (s : State) : Result := blockFold n s

end Sys2Proof.Machine
end

