-- ==== Sys2Proof/Machine/Hardware.lean ====
section
/-!
DEFINITION. The operations of datapath HW (45_hardware_engine.md): `WORD_STEP`, `STREAM3`, `RECOMBINE`. Their sequence
`HW_APPEND` is in Sequencer.lean.
Run alone, each of the four needs the unit (rule R140).
-/
namespace Sys2Proof.Machine

/-- `WORD_STEP(acc, a)` of a word width (rule R141): `acc <- RawFold(acc, MemRead(a, W))`, `a` a multiple of `W`. -/
def wordStep (w : WordWidth) (acc : AccSel) (a : Nat) (s : State) : Result :=
  withRead s a w.bytes fun d t => .next (t.setAligned acc a w.bytes (rawFold (t.ctx.acc acc) d))

/-- The word step of one stream, on the registers alone (rule R141). -/
def Context.wordStep (c : Context) (m : Memory) (w : Nat) (acc : AccSel) (a : Nat) : Context :=
  c.setAcc acc (rawFold (c.acc acc) (m.bytes a w))

/-- The three word steps of one offset of `STREAM3` (rule R145), in the order written there. -/
def Context.streamStep (c : Context) (m : Memory) (w b off : Nat) : Context :=
  ((c.wordStep m w .crc0 (c.ptr + off)).wordStep m w .crc1 (c.ptr + b + off)).wordStep m w .crc2
    (c.ptr + 2 * b + off)

/-- The loop of `STREAM3` (rule R145) over `n` words from offset `off`. -/
def Context.streamLoop (c : Context) (m : Memory) (w b : Nat) : Nat → Nat → Context
  | 0, _ => c
  | n + 1, off => Context.streamLoop (c.streamStep m w b off) m w b n (off + w)

/-- The uses of the read port of the same loop. -/
def streamAccesses (p w b : Nat) : Nat → Nat → List Access
  | 0, _ => []
  | n + 1, off =>
    { addr := p + off, width := w } :: { addr := p + b + off, width := w } :: { addr := p + 2 * b + off, width := w }
      :: streamAccesses p w b n (off + w)

/-- `STREAM3(B)` of a select bit (rule R145). The word steps of a `PTR` that is no multiple of `W` break their
precondition, and the three accumulators are free (assumption log entry 8). -/
def stream3 (t : TableSel) (s : State) : Result :=
  let b := s.cfg.streamLen t
  let w := s.cfg.word.bytes
  let p := s.ctx.ptr
  withAccess s p (3 * b) (streamAccesses p w b (b / w) 0) fun u =>
    if p % w = 0 then
      .next { u with ctx := Context.streamLoop { u.ctx with crc1 := 0, crc2 := 0 } u.mem w b (b / w) 0 }
    else .next (((u.freeAcc .crc0).freeAcc .crc1).freeAcc .crc2)

/-- `RECOMBINE(tab)` on the registers (rule R150): two shifts, each followed by an XOR, in sequence. -/
def recombineValue (tab : Table 4) (c : Context) : Word :=
  shiftApply tab (shiftApply tab c.crc0 ^^^ c.crc1) ^^^ c.crc2

/-- `RECOMBINE(tab)` (rule R150). -/
def State.recombine (s : State) (t : TableSel) : State :=
  s.setAcc .crc0 (recombineValue (s.shiftTable t) s.ctx)

/-- `WORD_STEP` (rule R141) of the latched accumulator and address, of the width its select bit names (rule R64). -/
def execWordStep (w : WordWidth) (s : State) : Result :=
  withHwUnit s (wordStep w s.port.acc s.port.wordAddr s)

/-- `STREAM3` (rule R145). -/
def execStream3 (t : TableSel) (s : State) : Result := withHwUnit s (stream3 t s)

/-- `RECOMBINE` (rule R150). -/
def execRecombine (t : TableSel) (s : State) : Result := withHwUnit s (.next (s.recombine t))

end Sys2Proof.Machine
end

