-- ==== Sys2Proof/Machine/Sequencer.lean ====
section
/-!
DEFINITION. The sequencer (10_state.md rule R25): the phases of the two datapaths, one turn of a phase at a time, and the
two sequences `SW_APPEND` (44_software_engine.md rules R124 to R127) and `HW_APPEND` (45_hardware_engine.md rules R143
to R151) that it runs.
-/
namespace Sys2Proof.Machine

/-- One round of a three-stream phase (rules R146, R147): `STREAM3`, `RECOMBINE`, and past the `3 × B` bytes. -/
def streamRound (t : TableSel) (s : State) : Result :=
  andThen (stream3 t s) fun u => .next ((u.recombine t).advance (3 * s.cfg.streamLen t))

/-- One turn of phase `HW_WORDS` (rule R148). -/
def wordRound (s : State) : Result :=
  andThen (wordStep s.cfg.word .crc0 s.ctx.ptr s) fun u => .next (u.advance s.cfg.word.bytes)

/-- A phase that is a loop: one turn of its body while its test holds, else the next phase. -/
def loopPhase (s : State) (test : Bool) (body : State → Result) (after : Phase) : Result :=
  if test then body s else .next (s.setPhase after)

/-- One turn of the phase the sequencer is in (rules R127, R151). -/
def seqStep (s : State) : Result :=
  let w := s.cfg.word.bytes
  let n := s.cfg.block.bytes
  match s.ctx.phase with
  | .idle => .next s
  | .swPre => .next (s.xorF.setPhase .swHead)
  | .swHead => loopPhase s (decide (0 < s.ctx.rem) && s.ctx.ptr % n != 0) byteFold .swBlock
  | .swBlock => loopPhase s (decide (n ≤ s.ctx.rem)) (blockFold s.cfg.block) .swTail
  | .swTail => loopPhase s (decide (0 < s.ctx.rem)) byteFold .swPost
  | .swPost => .next (s.xorF.setPhase .idle)
  | .hwPre => .next (s.xorF.setPhase .hwHead)
  | .hwHead => loopPhase s (decide (0 < s.ctx.rem) && s.ctx.ptr % w != 0) byteFold .hwLong
  | .hwLong => loopPhase s (decide (3 * s.cfg.long ≤ s.ctx.rem)) (streamRound .long) .hwShort
  | .hwShort => loopPhase s (decide (3 * s.cfg.short ≤ s.ctx.rem)) (streamRound .short) .hwWords
  | .hwWords => loopPhase s (decide (w ≤ s.ctx.rem)) wordRound .hwTail
  | .hwTail => loopPhase s (decide (0 < s.ctx.rem)) byteFold .hwPost
  | .hwPost => .next (s.xorF.setPhase .idle)

/-- Run the sequencer until it is idle, at most `fuel` turns. -/
def runSeq : Nat → State → Result
  | 0, s => .next s
  | fuel + 1, s => if s.ctx.phase = .idle then .next s else andThen (seqStep s) (runSeq fuel)

/-- `CRC0 <- crc ; PTR <- addr ; REM <- len` and the first phase (rules R127, R151). -/
def State.load (s : State) (crc : Word) (addr len : Nat) (p : Phase) : State :=
  { s with ctx := { s.ctx with crc0 := crc, ptr := addr, rem := len, phase := p } }

/-- `SW_APPEND(crc, addr, len)` (rule R127); the result is left in `CRC0`. Each turn takes a byte off `REM` or goes to
the next of at most seven phases, so the bound is never met. -/
def swAppend (crc : Word) (addr len : Nat) (s : State) : Result :=
  runSeq (len + 8) (s.load crc addr len .swPre)

/-- `HW_APPEND(crc, addr, len)` (rule R151); the result is left in `CRC0`. -/
def hwAppend (crc : Word) (addr len : Nat) (s : State) : Result :=
  runSeq (len + 8) (s.load crc addr len .hwPre)

/-- `return CRC0`. -/
def State.returnCrc0 (s : State) : State := { s with result := s.ctx.crc0 }

/-- `SW_APPEND` (rule R127) of the latched operands. -/
def execSwAppend (s : State) : Result :=
  andThen (swAppend s.port.crc s.port.addr s.port.len s) fun t => .next t.returnCrc0

/-- `HW_APPEND` (rule R151) of the latched operands; it needs the unit (rule R140). -/
def execHwAppend (s : State) : Result :=
  withHwUnit s (andThen (hwAppend s.port.crc s.port.addr s.port.len s) fun t => .next t.returnCrc0)

end Sys2Proof.Machine
end

