-- ==== Sys2Proof/Machine/ValueTable.lean ====
section
/-!
DEFINITION. The Value Table Builder (43_value_table.md): `VT_ROW0`, `VT_ROWK`, `VT_BUILD`.
-/
namespace Sys2Proof.Machine

/-- `VT_ROW0` (rule R111): eight bit steps of every byte value. -/
def vtRow0 (vt : Table 16) : Table 16 := setRow vt 0 fun n => bitSteps 8 (zext n)

/-- `VT_ROWK(k)` (rule R112): `VT[k][n] <- VT[0][p & 0xFF] ^ (p >> 8)` with `p = VT[k-1][n]`. -/
def vtRowk (vt : Table 16) (k : Nat) : Table 16 :=
  setRow vt k fun n =>
    let p := entry vt (k - 1) n
    entry vt 0 (byteOf p 0) ^^^ (p >>> 8)

/-- The rows `k`, `k + 1`, …, `n` of them, in ascending order (rule R114). -/
def vtRows (vt : Table 16) : Nat → Nat → Table 16
  | 0, _ => vt
  | n + 1, k => vtRows (vtRowk vt k) n (k + 1)

/-- `VT_BUILD` (rule R114): row 0, then the rows 1 to 15. -/
def vtBuild (vt : Table 16) : Table 16 := vtRows (vtRow0 vt) 15 1

/-- `VT_ROW0` (rule R111). -/
def execVtRow0 (s : State) : Result := withTableWrite s (.next { s with vt := vtRow0 s.vt })

/-- `VT_ROWK` (rule R112) of the latched row number. The rule lets row `k` be computed only after row `k - 1` is complete;
run alone where it is not, the operation takes what rows `k - 1` and 0 hold (DESIGN CHOICE, assumption log entry 25). -/
def execVtRowk (s : State) : Result :=
  withTableWrite s (.next { s with vt := vtRowk s.vt s.port.rowIndex })

/-- `VT_BUILD` (rule R114). -/
def execVtBuild (s : State) : Result := withTableWrite s (.next { s with vt := vtBuild s.vt })

end Sys2Proof.Machine
end

