-- ==== Sys2Proof/Machine/Dispatcher.lean ====
section
/-!
DEFINITION. The Dispatcher (46_dispatcher.md): the three host commands `INIT`, `APPEND`, `HWAVAIL`, each one atomic step
(00_scope.md rule R10).
-/
namespace Sys2Proof.Machine

/-- What `INIT` builds (rule R162): `VT_BUILD`, then `SHTAB_BUILD(LT, ZEROS_OP(LONG))`, then
`SHTAB_BUILD(ST, ZEROS_OP(SHORT))`. -/
def State.buildTables (s : State) : State :=
  ((({ s with vt := vtBuild s.vt }.zerosOp s.cfg.long).shtabBuild .long).zerosOp s.cfg.short).shtabBuild .short

/-- The tables of an `INIT` that leaves mode `Uninitialized` (rule R162): built, unless they are constants. -/
def State.initTables (s : State) : State :=
  match s.cfg.tableSrc with
  | .built => s.buildTables
  | .embedded => s

/-- `INIT` (rule R162). -/
def execInit (s : State) : Result :=
  match s.mode with
  | .faulted => .next (s.respond .engineFaulted 0)
  | .ready => .next (s.respond .ok 0)
  | .uninitialized => .next ({ s.initTables with hwcap := s.hwcapIn, mode := .ready }.respond .ok 0)

/-- The datapath an `APPEND` runs on (rule R165: `HWCAP`, never `HWCAP_IN`, rule R163). -/
def runDatapath (crc : Word) (addr len : Nat) (s : State) : Result :=
  if s.hwcap then hwAppend crc addr len s else swAppend crc addr len s

/-- `APPEND crc, addr, len` (rules R164, R165): a new context is opened, the datapath runs in it, and it is closed. -/
def execAppend (crc : Word) (addr len : Nat) (s : State) : Result :=
  whenReady s
    (if s.inRange addr len then
      andThen (runDatapath crc addr len { s with ctx := .fresh }) fun t =>
        .next ({ t with ctx := s.ctx }.respond .ok t.ctx.crc0)
    else .next (s.respond .badRange 0))

/-- `HWAVAIL` (rule R170). -/
def execHwavail (s : State) : Result := whenReady s (.next (s.respond .ok (flagWord s.hwcap)))

end Sys2Proof.Machine
end

