-- ==== Sys2Proof/Machine/Dispatch.lean ====
section
/-!
DEFINITION. The dispatch: one arm for each instruction, each one call of its meaning.
-/
namespace Sys2Proof.Machine

def exec (i : Instr) (s : State) : Host.Outcome State Fault Refusal :=
  match i with
  | .init => Sys2Proof.Machine.execInit s
  | .append crc addr len => Sys2Proof.Machine.execAppend crc addr len s
  | .hwavail => Sys2Proof.Machine.execHwavail s
  | .matvec => Sys2Proof.Machine.execMatvec s
  | .matsq => Sys2Proof.Machine.execMatsq s
  | .op1bit => Sys2Proof.Machine.execOp1bit s
  | .zerosOp => Sys2Proof.Machine.execZerosOp s
  | .shtabBuild t => Sys2Proof.Machine.execShtabBuild t s
  | .shiftApply t => Sys2Proof.Machine.execShiftApply t s
  | .vtRow0 => Sys2Proof.Machine.execVtRow0 s
  | .vtRowk => Sys2Proof.Machine.execVtRowk s
  | .vtBuild => Sys2Proof.Machine.execVtBuild s
  | .xorF => Sys2Proof.Machine.execXorF s
  | .byteFold => Sys2Proof.Machine.execByteFold s
  | .blockFold n => Sys2Proof.Machine.execBlockFold n s
  | .wordStep w => Sys2Proof.Machine.execWordStep w s
  | .stream3 t => Sys2Proof.Machine.execStream3 t s
  | .recombine t => Sys2Proof.Machine.execRecombine t s
  | .swAppend => Sys2Proof.Machine.execSwAppend s
  | .hwAppend => Sys2Proof.Machine.execHwAppend s

end Sys2Proof.Machine
end

