-- ==== Sys2Proof/WellFormed.lean ====
section
/-!
DEFINITION. Which instructions a build can encode: the two operands of `APPEND` that have a width which depends on the
build fit it (30_encoding.md rules R61, R65). Every other operand is legal at every value of its type.
-/
namespace Sys2Proof

/-- `addr` and `len` are unsigned `ADDR_W`-bit numbers (rule R65). -/
def Instr.wf (c : Config) : Instr → Bool
  | .append _ addr len => decide (addr < c.space) && decide (len < c.space)
  | .init | .hwavail | .matvec | .matsq | .op1bit | .zerosOp | .shtabBuild _ | .shiftApply _ | .vtRow0 | .vtRowk
  | .vtBuild | .xorF | .byteFold | .blockFold _ | .wordStep _ | .stream3 _ | .recombine _ | .swAppend
  | .hwAppend => true

end Sys2Proof
end

