-- ==== Sys2Proof/Decode.lean ====
section
/-!
DEFINITION. The encodings of 30_encoding.md: the request packet `REQ` (rules R61, R63), the operation code `UOP`
(rule R64), the decoder of both, total, with every reserved code rejected by name (rule R66), and the encoder.
-/
namespace Sys2Proof

/-- What the block takes an instruction from: a request packet of `40 + 2 × ADDR_W` bits on the request port
(rule R61; bit 0 is the least significant bit of the number), or an 8-bit operation code on the sequencer's port
(rule R64). -/
inductive Code where
  | req (packet : Nat)
  | uop (code : Byte)
deriving DecidableEq, Repr

/-- Why a code is no instruction. -/
inductive DecodeError where
  /-- A request whose `op` is not `0x01`, `0x02`, `0x03` (rule R66). -/
  | reservedOp (op : Byte)
  /-- An 8-bit code that no pattern of rule R64 covers. -/
  | reservedUop (code : Byte)
deriving DecidableEq, Repr

/-- The select bit `t` of rule R64. -/
def TableSel.ofBit (t : Bool) : TableSel := if t then .short else .long

/-- The select bit `n` of rule R64. -/
def BlockWidth.ofBit (n : Bool) : BlockWidth := if n then .b16 else .b8

/-- The select bit `w` of rule R64. -/
def WordWidth.ofBit (w : Bool) : WordWidth := if w then .w8 else .w4

/-- The bit of a select field, `t`. -/
def TableSel.bit : TableSel → Byte
  | .long => 0
  | .short => 1

/-- The bit of a select field, `n`. -/
def BlockWidth.bit : BlockWidth → Byte
  | .b8 => 0
  | .b16 => 1

/-- The bit of a select field, `w`. -/
def WordWidth.bit : WordWidth → Byte
  | .w4 => 0
  | .w8 => 1

/-- One row of rule R64's table: the codes `c` with `c & mask = pattern`, and the operation they stand for (the
argument is bit 0 of the code, the one-bit field of a pattern that has one). -/
structure UopRow where
  mask : Byte
  pattern : Byte
  op : Bool → Instr

/-- The patterns of rule R64, in its order. -/
def uopRows : List UopRow :=
  [ { mask := 0b11111111, pattern := 0b00010000, op := fun _ => .matvec },
    { mask := 0b11111111, pattern := 0b00010001, op := fun _ => .matsq },
    { mask := 0b11111111, pattern := 0b00010010, op := fun _ => .op1bit },
    { mask := 0b11111111, pattern := 0b00010011, op := fun _ => .zerosOp },
    { mask := 0b11111110, pattern := 0b00010100, op := fun t => .shtabBuild (.ofBit t) },
    { mask := 0b11111110, pattern := 0b00010110, op := fun t => .shiftApply (.ofBit t) },
    { mask := 0b11111111, pattern := 0b00011000, op := fun _ => .vtRow0 },
    { mask := 0b11111111, pattern := 0b00011001, op := fun _ => .vtRowk },
    { mask := 0b11111111, pattern := 0b00011010, op := fun _ => .vtBuild } ] ++
  [ { mask := 0b11111111, pattern := 0b00100000, op := fun _ => .xorF },
    { mask := 0b11111111, pattern := 0b00100001, op := fun _ => .byteFold },
    { mask := 0b11111110, pattern := 0b00100010, op := fun n => .blockFold (.ofBit n) },
    { mask := 0b11111110, pattern := 0b00100100, op := fun w => .wordStep (.ofBit w) },
    { mask := 0b11111110, pattern := 0b00100110, op := fun t => .stream3 (.ofBit t) },
    { mask := 0b11111110, pattern := 0b00101000, op := fun t => .recombine (.ofBit t) },
    { mask := 0b11111111, pattern := 0b00101010, op := fun _ => .swAppend },
    { mask := 0b11111111, pattern := 0b00101011, op := fun _ => .hwAppend } ]

/-- Whether a code is one of a row's. -/
def UopRow.covers (r : UopRow) (c : Byte) : Bool := c &&& r.mask == r.pattern

/-- The operation of an 8-bit code (rule R64). -/
def decodeUop (c : Byte) : Except DecodeError Instr :=
  match uopRows.find? (fun r => r.covers c) with
  | some r => .ok (r.op (c.getLsbD 0))
  | none => .error (.reservedUop c)

/-- Bits `lo + n - 1 .. lo` of a packet, as an unsigned number (rule R11). -/
abbrev packetBits (p lo n : Nat) : Nat := p / 2 ^ lo % 2 ^ n

/-- The command of a request packet (rules R61, R63): the low byte decides; `INIT` and `HWAVAIL` ignore the other
fields. -/
def decodeReq (aw : Nat) (p : Nat) : Except DecodeError Instr :=
  if packetBits p 0 8 = 0x01 then .ok .init
  else if packetBits p 0 8 = 0x02 then
    .ok (.append (BitVec.ofNat 32 (packetBits p 8 32)) (packetBits p 40 aw) (packetBits p (40 + aw) aw))
  else if packetBits p 0 8 = 0x03 then .ok .hwavail
  else .error (.reservedOp (BitVec.ofNat 8 (packetBits p 0 8)))

/-- The decoder, for a build whose addresses have `aw = ADDR_W` bits. -/
def decode (aw : Nat) : Code → Except DecodeError Instr
  | .req p => decodeReq aw p
  | .uop c => decodeUop c

/-- The encoder: the request packet of a command (rules R61, R63; the fields `INIT` and `HWAVAIL` ignore are zero), the
operation code of an internal operation (rule R64). -/
def encode (aw : Nat) : Instr → Code
  | .init => .req 0x01
  | .append crc addr len => .req (0x02 + crc.toNat * 2 ^ 8 + addr * 2 ^ 40 + len * 2 ^ (40 + aw))
  | .hwavail => .req 0x03
  | .matvec => .uop 0b00010000
  | .matsq => .uop 0b00010001
  | .op1bit => .uop 0b00010010
  | .zerosOp => .uop 0b00010011
  | .shtabBuild t => .uop (0b00010100 ||| t.bit)
  | .shiftApply t => .uop (0b00010110 ||| t.bit)
  | .vtRow0 => .uop 0b00011000
  | .vtRowk => .uop 0b00011001
  | .vtBuild => .uop 0b00011010
  | .xorF => .uop 0b00100000
  | .byteFold => .uop 0b00100001
  | .blockFold n => .uop (0b00100010 ||| n.bit)
  | .wordStep w => .uop (0b00100100 ||| w.bit)
  | .stream3 t => .uop (0b00100110 ||| t.bit)
  | .recombine t => .uop (0b00101000 ||| t.bit)
  | .swAppend => .uop 0b00101010
  | .hwAppend => .uop 0b00101011

/-- Whether a decoding succeeded. -/
def isInstr (r : Except DecodeError Instr) : Bool :=
  match r with
  | .ok _ => true
  | .error _ => false

/-- Where an instruction of spec/opcode_table.json with `nbits` bits `w` stands: a row of format `UOP` has 8 bits and
is a code on the sequencer's port; everything else is a packet on the request port, its bits above `nbits` zero. -/
def tableCode (nbits w : Nat) : Code :=
  if nbits ≤ 8 && isInstr (decodeUop (BitVec.ofNat 8 (w % 2 ^ nbits))) then .uop (BitVec.ofNat 8 (w % 2 ^ nbits))
  else .req (w % 2 ^ nbits)

/-- The instruction the decoder reads from an instruction of the opcode table, in the default build. -/
def decodeTableWord (nbits w : Nat) : Option Instr :=
  match decode Config.standard.addrW (tableCode nbits w) with
  | .ok i => some i
  | .error _ => none

end Sys2Proof
end

