-- ==== Sys2Proof/Machine/Fetch.lean ====
section
/-!
DEFINITION. What the next step does: the operation code on the sequencer's port, else what the outside does next.
-/
namespace Sys2Proof.Machine

/-- An instruction to run on a state, or a step that runs none. -/
inductive Fetched where
  | run (i : Instr) (s : State)
  | done (r : Result)

/-- Take a request (rule R164): a reserved `op` is answered at once, the rest is the command's. -/
def fetchRequest (packet : Nat) (s : State) : Fetched :=
  match decode s.cfg.addrW (.req packet) with
  | .ok i => .run i s
  | .error _ => .done (.next s.rejectRequest)

/-- Take an operation code (rule R64). -/
def fetchUop (code : Byte) (s : State) : Fetched :=
  match decode s.cfg.addrW (.uop code) with
  | .ok i => .run i s
  | .error _ => .done (.refused (.reservedUop code))

/-- Take what the outside does next. -/
def fetchEvent (e : Event) (s : State) : Fetched :=
  match e with
  | .request packet => fetchRequest packet s
  | .reset => .done (.next s.takeReset)
  | .pin level => .done (.next { s with hwcapIn := level })
  | .hostWrite a b => .done (s.takeHostWrite a b)

/-- What the next step does. With nothing to do the block is idle and holds its state (60_exceptions.md rule R194). -/
def fetch (s : State) : Fetched :=
  match s.uop with
  | some c => fetchUop c { s with uop := none }
  | none =>
    match s.events with
    | [] => .done (.next s)
    | e :: rest => fetchEvent e { s with events := rest }

/-- Place a code where the next step takes it: on the sequencer's port, or at the head of the requests. -/
def State.withCode (s : State) (c : Code) : State :=
  match c with
  | .req p => { s with uop := none, events := .request p :: s.events }
  | .uop c => { s with uop := some c }

end Sys2Proof.Machine
end

