-- ==== Sys2Proof/Machine/Step.lean ====
section
/-!
DEFINITION. One step of the machine: a host command, an internal operation on the sequencer's port, or something the
outside does that is no instruction. A configuration that breaks 00_scope.md rule R9 is refused.
-/
namespace Sys2Proof.Machine

/-- One step. -/
def step (s : State) : Host.Outcome State Fault Refusal :=
  if s.cfg.wf then
    match fetch s with
    | .run i t => exec i t
    | .done r => r
  else .refused .badConfig

/-- The state in which the next step runs an instruction of the opcode table, of `nbits` bits `w`. -/
def State.withFetchWord (s : State) (nbits w : Nat) : State := s.withCode (tableCode nbits w)

end Sys2Proof.Machine
end

