-- ==== Sys2Proof/Safety.lean ====
section
/-!
DEFINITION. The predicates that claims about the machine are stated in: the contents the tables must have (10_state.md
rule R31), what an operation needs of the buffer (20_memory.md rules R43, R49), which bytes a list of accesses reads
(rules R45, R47), and the invariant that every step keeps.
-/
namespace Sys2Proof.Machine

/-- The tables hold what the source states of them from the end of `INIT` on (rule R31): closed forms of the
polynomial and of the two stream lengths. -/
def State.TablesBuilt (s : State) : Prop :=
  (∀ k n, k < 16 → entry s.vt k n = zn (zext n) (k + 1)) ∧
  (∀ k n, k < 4 → entry s.lt k n = zn (zext n <<< (8 * k)) s.cfg.long) ∧
  (∀ k n, k < 4 → entry s.st k n = zn (zext n <<< (8 * k)) s.cfg.short)

/-- The engine can serve (rules R9, R21, R31): a legal build, mode `Ready`, the tables built. -/
def State.Serving (s : State) : Prop := s.cfg.wf = true ∧ s.mode = .ready ∧ s.TablesBuilt

/-- The bytes of a buffer exist (rule R43) and are backed by memory (rule R49). -/
def State.CanRead (s : State) (addr len : Nat) : Prop := addr + len ≤ s.cfg.space ∧ s.mapped addr len = true

/-- The operations of datapath HW may run (rules R22, R140): wherever the capability flag has a meaning, it is set. -/
def State.HwUsable (s : State) : Prop := s.mode = .ready → s.hwcap = true

/-- The addresses of the bytes that a list of accesses reads, with repetitions (rule R47). -/
def accessBytes (l : List Access) : List Nat := l.flatMap fun x => List.range' x.addr x.width

/-- The widest access of the datapath that `HWCAP` selects (rule R45): `WORD` on HW, `BLOCK` on SW. -/
def State.bulkWidth (s : State) : Nat := if s.hwcap then s.cfg.word.bytes else s.cfg.block.bytes

/-- The host's memory: canonical, and with no byte outside the address space (rule R40). -/
def State.MemoryOk (s : State) : Prop := s.mem.wf = true ∧ ∀ c ∈ s.mem, c.1 < s.cfg.space

/-- `FCODE` names the one fatal fault in mode `Faulted` and is zero in the other modes (rules R23, R33, R182). -/
def State.FaultCodeOk (s : State) : Prop :=
  (s.mode = .faulted → s.fcode = 0x01) ∧ (s.mode ≠ .faulted → s.fcode = 0x00)

/-- The invariant: a legal build (rule R9), the memory and the fault code in order, no phase of a context left open
(rules R25, R210), and the tables as rule R31 says wherever they can be read by an `APPEND`. -/
def State.Inv (s : State) : Prop :=
  s.cfg.wf = true ∧ s.MemoryOk ∧ s.FaultCodeOk ∧ s.ctx.phase = .idle ∧
  (s.mode = .ready ∨ s.cfg.tableSrc = .embedded → s.TablesBuilt)

/-- The phase that follows a phase (rules R127, R151). -/
def Phase.after : Phase → Phase
  | .idle => .idle
  | .swPre => .swHead
  | .swHead => .swBlock
  | .swBlock => .swTail
  | .swTail => .swPost
  | .swPost => .idle
  | .hwPre => .hwHead
  | .hwHead => .hwLong
  | .hwLong => .hwShort
  | .hwShort => .hwWords
  | .hwWords => .hwTail
  | .hwTail => .hwPost
  | .hwPost => .idle

end Sys2Proof.Machine
end

