-- ==== Sys2Proof/Certificates/Slice0/Obligations.lean ====
section
/-!
DEFINITION. The statements about the machine for the provers. Each says which rule of the spec it formalises, or that
it is the model's own (then it names the assumption log entry). Where a statement gives an internal operation to `exec`,
the operation runs alone, from the operand latches the model gives the sequencer and in the modes in which the model lets
it run (DESIGN CHOICE, assumption log entries 5, 7, 23).
-/
open Sys2Proof Sys2Proof.Machine

/-! ## The build, the encodings and the step -/

/-- Rule R9: what a legal configuration is, and that a step refuses every other. -/
def Obligations.IllegalConfigurationIsRefused : Prop :=
  (∀ c : Config, c.wf = true ↔
    (∃ i, c.long = 2 ^ i) ∧ (∃ j, c.short = 2 ^ j) ∧ c.short ∣ c.long ∧ c.word.bytes ∣ c.short ∧
      3 * c.long < 2 ^ c.addrW) ∧
  ∀ s : State, s.cfg.wf = false → step s = .refused .badConfig

/-- 30_encoding.md rules R61, R63, R64: decoding what the encoder writes gives the instruction back, for every
instruction, every operand value that a build of any address width can encode. -/
def Obligations.DecodeUndoesEncode : Prop :=
  ∀ (c : Config) (i : Instr), i.wf c = true → decode c.addrW (encode c.addrW i) = .ok i

/-- 30_encoding.md rules R61, R64: an operation code that decodes is the code the encoder writes, and so is a packet
that decodes to an `APPEND` (its width is `40 + 2 × ADDR_W` bits); the packets that decode to `INIT` and `HWAVAIL` are
those whose low byte says so, whatever the other fields hold. -/
def Obligations.EncodeUndoesDecode : Prop :=
  (∀ (aw : Nat) (c : Byte) (i : Instr), decode aw (.uop c) = .ok i → encode aw i = .uop c) ∧
  (∀ (aw p : Nat) (crc : Word) (addr len : Nat), p < 2 ^ (40 + 2 * aw) →
    decode aw (.req p) = .ok (.append crc addr len) → encode aw (.append crc addr len) = .req p) ∧
  (∀ aw p : Nat, decode aw (.req p) = .ok .init ↔ p % 256 = 1) ∧
  ∀ aw p : Nat, decode aw (.req p) = .ok .hwavail ↔ p % 256 = 3

/-- Codes written out from 30_encoding.md rules R61, R63, R64, R66 and from 95_test_vectors.md: a request of each
command, operation codes with each value of a select bit, and reserved codes of both ports. -/
def Obligations.WrittenCodesDecode : Prop :=
  decode 64 (.req 0xFFFFFFFFFFFFFFFF0000000000001234DEADBEEF01) = .ok .init ∧
  decode 64 (.req 0x0000000000000003000000000000200CE306928302) = .ok (.append 0xE3069283 0x200C 3) ∧
  decode 64 (.req 0x000000000000000000000000000000000000000003) = .ok .hwavail ∧
  decode 64 (.req 0x000000000000000100000000000000001234567821) = .error (.reservedOp 0x21) ∧
  decode 64 (.uop 0b00010000) = .ok .matvec ∧ decode 64 (.uop 0b00010011) = .ok .zerosOp ∧
  decode 64 (.uop 0b00010100) = .ok (.shtabBuild .long) ∧ decode 64 (.uop 0b00010101) = .ok (.shtabBuild .short) ∧
  decode 64 (.uop 0b00011001) = .ok .vtRowk ∧ decode 64 (.uop 0b00100001) = .ok .byteFold ∧
  decode 64 (.uop 0b00100010) = .ok (.blockFold .b8) ∧ decode 64 (.uop 0b00100011) = .ok (.blockFold .b16) ∧
  decode 64 (.uop 0b00100100) = .ok (.wordStep .w4) ∧ decode 64 (.uop 0b00101001) = .ok (.recombine .short) ∧
  decode 64 (.uop 0b00101011) = .ok .hwAppend ∧ decode 64 (.uop 0b00010110) = .ok (.shiftApply .long) ∧
  decode 64 (.uop 0b00101100) = .error (.reservedUop 0b00101100)

/-- A step runs the decoded instruction: the operation code on the sequencer's port, taken off the port, or, with
none there, the next request, taken off the queue. The port, and that it comes before the queue, are the model's choice
(DESIGN CHOICE, assumption log entry 5), and so is the queue of events (DESIGN CHOICE, assumption log entry 13); what a
code stands for is rules R61 and R64. -/
def Obligations.StepRunsTheDecodedInstruction : Prop :=
  (∀ (s : State) (c : Byte) (i : Instr), s.cfg.wf = true → s.uop = some c → decode s.cfg.addrW (.uop c) = .ok i →
    step s = exec i { s with uop := none }) ∧
  ∀ (s : State) (p : Nat) (rest : List Event) (i : Instr), s.cfg.wf = true → s.uop = none →
    s.events = .request p :: rest → decode s.cfg.addrW (.req p) = .ok i → step s = exec i { s with events := rest }

/-- What a step does that runs no instruction: with nothing to do the block holds its state (60_exceptions.md rule
R194); a new level on the pin changes `HWCAP_IN` and nothing else, not `HWCAP` (10_state.md rule R27); a host write
puts its byte in memory and leaves every other byte and the block's state alone (20_memory.md rules R40, R55), and one
outside the address space is a fault (assumption log entries 10, 13). -/
def Obligations.StepWithoutInstruction : Prop :=
  (∀ s : State, s.cfg.wf = true → s.uop = none → s.events = [] → step s = .next s) ∧
  (∀ (s : State) (b : Bool) (rest : List Event), s.cfg.wf = true → s.uop = none → s.events = .pin b :: rest →
    step s = .next { s with events := rest, hwcapIn := b }) ∧
  (∀ (s : State) (a : Nat) (b : Byte) (rest : List Event), s.cfg.wf = true → s.mem.wf = true → s.uop = none →
    s.events = .hostWrite a b :: rest → a < 2 ^ s.cfg.addrW →
    ∃ m, step s = .next { s with events := rest, mem := m } ∧ m.wf = true ∧ m.read a = b ∧
      ∀ x, x ≠ a → m.read x = s.mem.read x) ∧
  ∀ (s : State) (a : Nat) (b : Byte) (rest : List Event), s.cfg.wf = true → s.uop = none →
    s.events = .hostWrite a b :: rest → 2 ^ s.cfg.addrW ≤ a → step s = .fault .outsideAddressSpace

/-- A code on the sequencer's port that no pattern of rule R64 covers is refused by name: the codes outside
`0x10 .. 0x2B`, and the five within that the table leaves out (the model's choice, assumption log entry 5). -/
def Obligations.ReservedOperationCodeIsRefused : Prop :=
  ∀ (s : State) (c : Byte), s.cfg.wf = true → s.uop = some c →
    (c.toNat < 0x10 ∨ 0x2B < c.toNat ∨ (0x1B ≤ c.toNat ∧ c.toNat ≤ 0x1F)) → step s = .refused (.reservedUop c)

/-- Rule R62: the packet of every response. -/
def Obligations.ResponsePacketLayout : Prop :=
  ∀ r : Response, (r.encode.extractLsb' 0 8 =
      match r.status with
      | .ok => 0x00 | .notInitialized => 0x01 | .illegalCmd => 0x02 | .engineFaulted => 0x03 | .badRange => 0x04) ∧
    r.encode.extractLsb' 8 32 = r.value

/-! ## Reset, modes and faults -/

/-- Rule R33: what the spec states of the state after reset, for every build: the mode, the fault code, no context
open, and the constants of an embedded table. -/
def Obligations.ResetLeavesTheTabledValues : Prop :=
  ∀ c : Config, (State.resetOf c).cfg = c ∧ (State.resetOf c).mode = .uninitialized ∧
    (State.resetOf c).fcode = 0x00 ∧ (State.resetOf c).ctx.phase = .idle ∧
    (c.tableSrc = .embedded → (State.resetOf c).TablesBuilt)

/-- Rule R200: reset works in every mode, and is the way out of `Faulted`. What the outside holds is not reset
(assumption log entries 14, 15). -/
def Obligations.ResetIsTakenInEveryMode : Prop :=
  ∀ (s : State) (rest : List Event), s.cfg.wf = true → s.uop = none → s.events = .reset :: rest →
    ∃ t, step s = .next t ∧ t.mode = .uninitialized ∧ t.fcode = 0x00 ∧ t.ctx.phase = .idle ∧
      (s.cfg.tableSrc = .embedded → t.TablesBuilt) ∧
      t.cfg = s.cfg ∧ t.mem = s.mem ∧ t.unmapped = s.unmapped ∧ t.hwcapIn = s.hwcapIn ∧ t.events = rest ∧
      t.responses = s.responses ∧ t.reads = s.reads

/-- The invariant holds right after reset, in the default build and in every legal one. -/
def Obligations.InvariantAfterReset : Prop :=
  State.reset.Inv ∧ ∀ c : Config, c.wf = true → (State.resetOf c).Inv

/-- Every step keeps the invariant: the build stays legal, the host's memory canonical and within the address space,
`FCODE` names the fault in mode `Faulted` and is zero elsewhere, no phase is left open, and the tables hold rule R31's
closed forms wherever an `APPEND` can read them. -/
def Obligations.EveryStepKeepsTheInvariant : Prop :=
  ∀ s t : State, s.Inv → step s = .next t → t.Inv

/-- Rules R161, R182: an instruction changes `MODE` in two ways only, `INIT` to `Ready` and a use before `INIT` to
`Faulted`; `FCODE` is written by the fault alone; `HWCAP` by that `INIT` alone, from the pin. -/
def Obligations.ModeMovesOnlyAsTabled : Prop :=
  ∀ (i : Instr) (s t : State), exec i s = .next t →
    (t.mode = s.mode ∧ t.fcode = s.fcode ∧ t.hwcap = s.hwcap) ∨
    (s.mode = .uninitialized ∧ i = .init ∧ t.mode = .ready ∧ t.fcode = s.fcode ∧ t.hwcap = s.hwcapIn) ∨
    (s.mode = .uninitialized ∧ (i = .hwavail ∨ ∃ crc addr len, i = .append crc addr len) ∧ t.mode = .faulted ∧
      t.fcode = 0x01 ∧ t.hwcap = s.hwcap)

/-- Rules R182, R183: an `APPEND` or a `HWAVAIL` in mode `Uninitialized`, whatever its operands, takes the fatal fault:
`FCODE`, `MODE` and the response, and nothing else. -/
def Obligations.UseBeforeInitIsTheFatalFault : Prop :=
  ∀ s : State, s.mode = .uninitialized →
    (∀ crc addr len, exec (.append crc addr len) s = .next { s with
      fcode := 0x01, mode := .faulted, responses := s.responses ++ [{ status := .notInitialized, value := 0 }] }) ∧
    exec .hwavail s = .next { s with
      fcode := 0x01, mode := .faulted, responses := s.responses ++ [{ status := .notInitialized, value := 0 }] }

/-- Rule R186: in mode `Faulted` every request, of any `op`, is answered `ENGINE_FAULTED` and changes nothing, and no
step but a reset leaves the mode or clears `FCODE`. -/
def Obligations.FaultedAnswersEveryRequestAlike : Prop :=
  (∀ (s : State) (p : Nat) (rest : List Event), s.cfg.wf = true → s.mode = .faulted → s.uop = none →
    s.events = .request p :: rest →
    step s = .next { s with
      events := rest, responses := s.responses ++ [{ status := .engineFaulted, value := 0 }] }) ∧
  ∀ s t : State, s.mode = .faulted → step s = .next t →
    (t.mode = .faulted ∧ t.fcode = s.fcode) ∨ (s.uop = none ∧ ∃ rest, s.events = .reset :: rest)

/-- Rules R66, R184: a request whose `op` is reserved is answered `ILLEGAL_CMD` and changes nothing, in mode
`Uninitialized` as in `Ready`. -/
def Obligations.ReservedOpIsIllegal : Prop :=
  ∀ (s : State) (p : Nat) (rest : List Event), s.cfg.wf = true → s.mode ≠ .faulted → s.uop = none →
    s.events = .request p :: rest → p % 256 ≠ 0x01 → p % 256 ≠ 0x02 → p % 256 ≠ 0x03 →
    step s = .next { s with
      events := rest, responses := s.responses ++ [{ status := .illegalCmd, value := 0 }] }

/-- Rule R185: an `APPEND` in mode `Ready` whose range passes the top of the address space, the sum taken without
truncation, is answered `BAD_RANGE` and changes nothing. No range of no bytes passes it. -/
def Obligations.BadRangeIsRefused : Prop :=
  (∀ (s : State) (crc : Word) (addr len : Nat), s.mode = .ready → 2 ^ s.cfg.addrW < addr + len →
    exec (.append crc addr len) s = .next { s with
      responses := s.responses ++ [{ status := .badRange, value := 0 }] }) ∧
  ∀ (c : Config) (crc : Word) (addr : Nat), (Instr.append crc addr 0).wf c = true → ¬2 ^ c.addrW < addr + 0

/-- Rules R164, R180, R188: every request gets exactly one response, whose status is the first that holds of
`ENGINE_FAULTED`, `ILLEGAL_CMD`, `NOT_INITIALIZED`, `BAD_RANGE`, and `OK` where none does (an `APPEND` whose buffer the
platform does not back has no response, rule R49). -/
def Obligations.EveryRequestGetsOneStatus : Prop :=
  ∀ (s : State) (p : Nat) (rest : List Event), s.cfg.wf = true → s.uop = none → s.events = .request p :: rest →
    (∀ crc addr len, decode s.cfg.addrW (.req p) = .ok (.append crc addr len) → s.mapped addr len = true) →
    ∃ t v, step s = .next t ∧ t.events = rest ∧ t.responses = s.responses ++ [{
      status :=
        if s.mode = .faulted then .engineFaulted
        else if p % 256 ≠ 0x01 ∧ p % 256 ≠ 0x02 ∧ p % 256 ≠ 0x03 then .illegalCmd
        else if p % 256 ≠ 0x01 ∧ s.mode = .uninitialized then .notInitialized
        else if p % 256 = 0x02 ∧
            2 ^ s.cfg.addrW < packetBits p 40 s.cfg.addrW + packetBits p (40 + s.cfg.addrW) s.cfg.addrW then .badRange
        else .ok,
      value := v }]

/-- Rule R189: a command that is not answered `OK` has read no byte of the buffer, opened no context and written no
table. -/
def Obligations.NotOkHasNoPartialEffect : Prop :=
  ∀ (i : Instr) (s t : State) (st : Status) (v : Word), i.isCommand = true → exec i s = .next t →
    t.responses = s.responses ++ [{ status := st, value := v }] → st ≠ .ok →
    t.reads = s.reads ∧ t.ctx = s.ctx ∧ t.vt = s.vt ∧ t.lt = s.lt ∧ t.st = s.st ∧ t.even = s.even ∧ t.odd = s.odd ∧
      t.hwcap = s.hwcap

/-! ## What no instruction does -/

/-- Rule R44: no instruction writes the buffer address space: every byte of memory reads as before. Nor does one change
the build, the pin, what the outside does next, or an operand latch of the model. -/
def Obligations.NoInstructionWritesMemory : Prop :=
  ∀ (i : Instr) (s t : State), exec i s = .next t →
    (∀ a, t.mem.read a = s.mem.read a) ∧ t.mem = s.mem ∧ t.cfg = s.cfg ∧ t.unmapped = s.unmapped ∧
      t.hwcapIn = s.hwcapIn ∧ t.events = s.events ∧ t.uop = s.uop ∧ t.port = s.port

/-- Rules R31, R54, R56: in mode `Ready` no instruction changes a table, the capability flag or the mode. -/
def Obligations.ReadyIsReadOnly : Prop :=
  ∀ (i : Instr) (s t : State), s.mode = .ready → exec i s = .next t →
    t.mode = .ready ∧ t.vt = s.vt ∧ t.lt = s.lt ∧ t.st = s.st ∧ t.hwcap = s.hwcap ∧ t.fcode = s.fcode

/-! ## The host commands -/

/-- Rules R102, R114, R162: `INIT` in mode `Uninitialized` of a build whose tables are built answers `OK`, with the
tables at the closed forms of rule R31, the capability sampled from the pin and the mode `Ready`; it changes nothing
else but the matrix buffers, whose contents are dead afterwards. -/
def Obligations.InitBuildsTheTables : Prop :=
  ∀ s : State, s.cfg.wf = true → s.mode = .uninitialized → s.cfg.tableSrc = .built →
    ∃ t, exec .init s = .next t ∧ t.TablesBuilt ∧
      t = { s with
        mode := .ready, hwcap := s.hwcapIn, vt := t.vt, lt := t.lt, st := t.st, even := t.even, odd := t.odd,
        opMat := t.opMat, responses := s.responses ++ [{ status := .ok, value := 0 }] }

/-- Rule R162: `INIT` where nothing is built. In mode `Ready` it changes nothing, so a second `INIT` leaves what the
first left, whatever the pin says then; with embedded tables the first one samples the pin and goes to `Ready`; in mode
`Faulted` it is no way out. -/
def Obligations.InitWithoutBuild : Prop :=
  (∀ s : State, s.mode = .ready →
    exec .init s = .next { s with responses := s.responses ++ [{ status := .ok, value := 0 }] }) ∧
  (∀ s : State, s.mode = .uninitialized → s.cfg.tableSrc = .embedded →
    exec .init s = .next { s with
      mode := .ready, hwcap := s.hwcapIn, responses := s.responses ++ [{ status := .ok, value := 0 }] }) ∧
  ∀ s : State, s.mode = .faulted →
    exec .init s = .next { s with responses := s.responses ++ [{ status := .engineFaulted, value := 0 }] }

/-- Rule R170: `HWAVAIL` in mode `Ready` answers the stored flag and changes nothing. -/
def Obligations.HwavailAnswersTheFlag : Prop :=
  ∀ s : State, s.mode = .ready →
    exec .hwavail s = .next { s with
      responses := s.responses ++ [{ status := .ok, value := if s.hwcap then 1 else 0 }] }

/-- Rule R166: what `APPEND` returns, with either value of `HWCAP`, in every legal build; beside the response it leaves
only a record of its reads. -/
def Obligations.AppendReturnsTheCrc : Prop :=
  ∀ (s : State) (crc : Word) (addr len : Nat), s.Serving → s.CanRead addr len →
    ∃ rs, exec (.append crc addr len) s = .next { s with
      reads := s.reads ++ rs,
      responses := s.responses ++ [{ status := .ok, value := crcOf crc (s.mem.bytes addr len) }] }

/-- Rules R45, R46, R47: an `APPEND` reads every byte of its buffer exactly once and no other byte, in accesses of one
byte or of the one width of its datapath, each at a multiple of its width. -/
def Obligations.AppendReadsEachByteOnce : Prop :=
  ∀ (s : State) (crc : Word) (addr len : Nat), s.Serving → s.CanRead addr len →
    ∃ t rs, exec (.append crc addr len) s = .next t ∧ t.reads = s.reads ++ rs ∧
      (accessBytes rs).Perm (List.range' addr len) ∧
      ∀ x ∈ rs, x.addr % x.width = 0 ∧ (x.width = 1 ∨ x.width = s.bulkWidth)

/-- Rule R167: the response of `APPEND` is the same in two engines, whatever their capability flags, block and word
widths, stream lengths and table sources are, whenever the bytes of the buffers are the same, wherever these lie. -/
def Obligations.AppendIsPathIndependent : Prop :=
  ∀ (s₁ s₂ : State) (crc : Word) (addr₁ addr₂ len : Nat), s₁.Serving → s₂.Serving → s₁.CanRead addr₁ len →
    s₂.CanRead addr₂ len → s₁.mem.bytes addr₁ len = s₂.mem.bytes addr₂ len →
    ∃ t₁ t₂ v, exec (.append crc addr₁ len) s₁ = .next t₁ ∧ exec (.append crc addr₂ len) s₂ = .next t₂ ∧
      t₁.responses = s₁.responses ++ [{ status := .ok, value := v }] ∧
      t₂.responses = s₂.responses ++ [{ status := .ok, value := v }]

/-- Rule R168: an `APPEND` of no bytes reads nothing and returns its accumulator, at every address, also where the
platform backs no memory. -/
def Obligations.AppendOfNothingReturnsItsAccumulator : Prop :=
  ∀ (s : State) (crc : Word) (addr : Nat), s.cfg.wf = true → s.mode = .ready → addr ≤ 2 ^ s.cfg.addrW →
    exec (.append crc addr 0) s = .next { s with
      responses := s.responses ++ [{ status := .ok, value := crc }] }

/-- Rule R169: an `APPEND` of the first part of a buffer and an `APPEND` of the rest, from the accumulator the first
returned, return what one `APPEND` of the whole buffer returns. -/
def Obligations.AppendsChain : Prop :=
  ∀ (s : State) (crc : Word) (addr m n : Nat), s.Serving → s.CanRead addr (m + n) →
    ∃ t₁ t₂ t c v, exec (.append crc addr m) s = .next t₁ ∧
      t₁.responses = s.responses ++ [{ status := .ok, value := c }] ∧
      exec (.append c (addr + m) n) t₁ = .next t₂ ∧
      t₂.responses = t₁.responses ++ [{ status := .ok, value := v }] ∧
      exec (.append crc addr (m + n)) s = .next t ∧ t.responses = s.responses ++ [{ status := .ok, value := v }]

/-- Rule R54: two `APPEND`s served in either order get the same two responses. -/
def Obligations.AppendsMayBeServedInAnyOrder : Prop :=
  ∀ (s : State) (crc₁ crc₂ : Word) (addr₁ len₁ addr₂ len₂ : Nat), s.Serving → s.CanRead addr₁ len₁ →
    s.CanRead addr₂ len₂ →
    ∃ t u r₁ r₂, andThen (exec (.append crc₁ addr₁ len₁) s) (exec (.append crc₂ addr₂ len₂)) = .next t ∧
      andThen (exec (.append crc₂ addr₂ len₂) s) (exec (.append crc₁ addr₁ len₁)) = .next u ∧
      t.responses = s.responses ++ [r₁, r₂] ∧ u.responses = s.responses ++ [r₂, r₁] ∧
      r₁.status = .ok ∧ r₂.status = .ok

/-- Rule R8: the check value, wherever the nine bytes of "123456789" lie, on either datapath of every legal build. -/
def Obligations.CheckValueOfTheSource : Prop :=
  ∀ (s : State) (addr : Nat), s.Serving → s.CanRead addr 9 →
    s.mem.bytes addr 9 = [0x31, 0x32, 0x33, 0x34, 0x35, 0x36, 0x37, 0x38, 0x39] →
    ∃ t, exec (.append 0 addr 9) s = .next t ∧
      t.responses = s.responses ++ [{ status := .ok, value := 0xE3069283 }]

/-- Rule R49 (U4): an `APPEND` of a buffer of which the platform does not back some byte is refused; no response is
invented. -/
def Obligations.UnreadableBufferIsRefused : Prop :=
  ∀ (s : State) (crc : Word) (addr len : Nat), s.Serving → addr + len ≤ s.cfg.space → s.mapped addr len = false →
    exec (.append crc addr len) s = .refused .unreadableBuffer

/-! ## The table builders -/

/-- Rule R81: `MATVEC` of the latched operands is the XOR of the rows that the bits of the vector select; it leaves
the result and changes nothing else. The spec has it used only while `INIT` runs; that it runs alone in every mode, on
what the latched buffer holds, is the model's DESIGN CHOICE (assumption log entries 5, 25). -/
def Obligations.MatvecSelectsRows : Prop :=
  ∀ s : State, s.cfg.tableSrc = .built →
    exec .matvec s = .next { s with
      result := (List.range 32).foldl
        (fun sum i => if s.port.vec.getLsbD i then sum ^^^ matRow (s.mat s.port.mat) i else sum) 0 }

/-- Rules R81, R83 (a): `MATVEC` is linear in the vector, gives zero for zero, and row `i` for the vector with bit `i`
alone. -/
def Obligations.MatvecIsLinear : Prop :=
  ∀ mat : Mat, (∀ a b, matvec mat (a ^^^ b) = matvec mat a ^^^ matvec mat b) ∧ matvec mat 0 = 0 ∧
    ∀ i, i < 32 → matvec mat ((1 : Word) <<< i) = matRow mat i

/-- Rules R82, R83 (b): `MATSQ` writes the buffer that is not its source: row `n` is the map applied to row `n`, and the
map it stands for is the source's applied twice. The spec has it used only while `INIT` runs; that it runs alone in every
mode, on what the latched source holds, is the model's DESIGN CHOICE (assumption log entries 5, 25). -/
def Obligations.MatsqAppliesTheMapTwice : Prop :=
  ∀ s : State, s.cfg.tableSrc = .built →
    ∃ m, exec .matsq s = .next (s.setMat s.port.mat.other m) ∧
      (∀ n, n < 32 → matRow m n = matvec (s.mat s.port.mat) (matRow (s.mat s.port.mat) n)) ∧
      ∀ v, matvec m v = matvec (s.mat s.port.mat) (matvec (s.mat s.port.mat) v)

/-- Rule R91: `OP1BIT` writes the latched buffer with the rows the rule lists, and the matrix stands for `BitStep`.
The spec has it run only during `INIT`; that it runs alone in every mode is the model's DESIGN CHOICE (assumption log
entry 5). -/
def Obligations.Op1bitIsBitStep : Prop :=
  ∀ s : State, s.cfg.tableSrc = .built →
    ∃ m, exec .op1bit s = .next (s.setMat s.port.mat m) ∧ matRow m 0 = 0x82F63B78 ∧
      (∀ n, 1 ≤ n → n < 32 → matRow m n = (1 : Word) <<< (n - 1)) ∧ ∀ v, matvec m v = bitStep v

/-- Rules R92, R94, R95: `ZEROS_OP` of a length `L >= 1` leaves, in the buffer it names, the operator for as many zero
bytes as the largest power of two that is not above `L` (for a power of two: `L` zero bytes). It writes the two matrix
buffers and the model's name of the result, and nothing else. The spec has it run only during `INIT`; that it runs alone
in every mode is the model's DESIGN CHOICE (assumption log entry 5). -/
def Obligations.ZerosOpAppendsZeroBytes : Prop :=
  ∀ s : State, s.cfg.tableSrc = .built → 1 ≤ s.port.zeros →
    ∃ t, exec .zerosOp s = .next t ∧ t = { s with even := t.even, odd := t.odd, opMat := t.opMat } ∧
      (∀ v, matvec (t.mat t.opMat) v = zn v (2 ^ Nat.log2 s.port.zeros)) ∧
      ∀ k, s.port.zeros = 2 ^ k → ∀ v, matvec (t.mat t.opMat) v = zn v s.port.zeros

/-- Rule R96 (D26): `ZEROS_OP` of length zero is refused. That the operation is tried alone, in every mode, is the model's
DESIGN CHOICE (assumption log entry 5). -/
def Obligations.ZerosOpOfZeroIsRefused : Prop :=
  ∀ s : State, s.cfg.tableSrc = .built → s.port.zeros = 0 → exec .zerosOp s = .refused .zeroLengthOperator

/-- Rule R101: `SHTAB_BUILD` writes the table its select bit names, each entry the operator applied to the placed byte,
and nothing else. The operator is what the buffer named by the last `ZEROS_OP` holds; where none has run, that is the
model's DESIGN CHOICE (assumption log entry 25). -/
def Obligations.ShtabBuildPlacesEveryByte : Prop :=
  ∀ (s : State) (t : TableSel), s.cfg.tableSrc = .built → s.mode = .uninitialized →
    ∃ tab, exec (.shtabBuild t) s = .next (s.setShiftTable t tab) ∧
      ∀ k n, k < 4 → entry tab k n = matvec (s.mat s.opMat) (n.setWidth 32 <<< (8 * k))

/-- Rules R30, R31, R54, R56: the builder operations stop where the builders do not exist, and those that write a table
stop once initialisation has completed (which refusal it is: the model's choice, assumption log entries 6, 7). -/
def Obligations.BuildersStopWhereTheyMayNotRun : Prop :=
  (∀ (s : State) (i : Instr), s.cfg.tableSrc = .embedded →
    i ∈ [.matvec, .matsq, .op1bit, .zerosOp, .shtabBuild .long, .shtabBuild .short, .vtRow0, .vtRowk, .vtBuild] →
    exec i s = .refused .builderAbsent) ∧
  ∀ (s : State) (i : Instr), s.cfg.tableSrc = .built → s.mode ≠ .uninitialized →
    i ∈ [.shtabBuild .long, .shtabBuild .short, .vtRow0, .vtRowk, .vtBuild] → exec i s = .refused .tablesReadOnly

/-- Rules R111, R112: `VT_ROW0` writes row 0, each entry the byte after eight bit steps; `VT_ROWK` writes the latched
row `k`, from row `k - 1` and row 0. Neither writes another row or anything else. Where row `k - 1` is not complete, that
`VT_ROWK` runs on what the two rows hold is the model's DESIGN CHOICE (assumption log entry 25). -/
def Obligations.ValueTableRows : Prop :=
  (∀ s : State, s.cfg.tableSrc = .built → s.mode = .uninitialized →
    ∃ vt, exec .vtRow0 s = .next { s with vt := vt } ∧ (∀ n, entry vt 0 n = byteFoldSpec 0 n) ∧
      ∀ k n, 1 ≤ k → k < 16 → entry vt k n = entry s.vt k n) ∧
  ∀ s : State, s.cfg.tableSrc = .built → s.mode = .uninitialized →
    ∃ vt, exec .vtRowk s = .next { s with vt := vt } ∧
      (∀ n, entry vt s.port.rowIndex n =
        entry s.vt 0 ((entry s.vt (s.port.rowIndex - 1) n &&& 0xFF).setWidth 8) ^^^
          (entry s.vt (s.port.rowIndex - 1) n >>> 8)) ∧
      ∀ k n, k < 16 → k ≠ s.port.rowIndex → entry vt k n = entry s.vt k n

/-- Rules R113, R114: `VT_BUILD` writes the whole value table, at its closed form, and nothing else. -/
def Obligations.ValueTableClosedForm : Prop :=
  ∀ s : State, s.cfg.tableSrc = .built → s.mode = .uninitialized →
    ∃ vt, exec .vtBuild s = .next { s with vt := vt } ∧
      ∀ k n, k < 16 → entry vt k n = zn (n.setWidth 32) (k + 1)

/-- Rule R104: `SHIFT_APPLY` is the XOR of four lookups of the table its select bit names; with the tables built it
appends `LONG` or `SHORT` zero bytes. It leaves the result and changes nothing else. R29 has it used only by
`RECOMBINE`; that it runs alone in every mode, with either value of `HWCAP`, is the model's DESIGN CHOICE (assumption log
entry 5). -/
def Obligations.ShiftApplyAppendsZeroBytes : Prop :=
  ∀ (s : State) (t : TableSel),
    ∃ v, exec (.shiftApply t) s = .next { s with result := v } ∧
      (v = (List.range 4).foldl
        (fun sum k => sum ^^^ entry (s.shiftTable t) k (s.port.vec.extractLsb' (8 * k) 8)) 0) ∧
      (s.TablesBuilt → v = zn s.port.vec (s.cfg.streamLen t))

/-- Rule R105: the short table applied `LONG / SHORT` times is the long table applied once. -/
def Obligations.ShortTableIteratedIsTheLongTable : Prop :=
  ∀ (s : State) (c : Word), s.cfg.wf = true → s.TablesBuilt →
    (shiftApply s.st)^[s.cfg.long / s.cfg.short] c = shiftApply s.lt c

/-! ## The two datapaths -/

/-- Rule R15: the combine law, on raw states and on finished CRCs. -/
def Obligations.CombineLaw : Prop :=
  (∀ (s : Word) (a b : List Byte), rawFold s (a ++ b) = zn (rawFold s a) b.length ^^^ rawFold 0 b) ∧
  ∀ b₁ b₂ : List Byte, crcOf 0 (b₁ ++ b₂) = combine (crcOf 0 b₁) (crcOf 0 b₂) b₂.length

/-- Rule R123: `XOR_F` complements `CRC0`. That it runs alone, in every mode and outside an `APPEND`, is the model's
DESIGN CHOICE (assumption log entry 5). -/
def Obligations.XorFComplementsTheAccumulator : Prop :=
  ∀ s : State, exec .xorF s = .next { s with ctx := { s.ctx with crc0 := s.ctx.crc0 ^^^ 0xFFFFFFFF } }

/-- Rule R121: `BYTE_FOLD` of a byte of the buffer, with the formula of the rule, which with the tables built is
`ByteFold`. That it runs alone in every mode, on whatever the tables hold, is the model's DESIGN CHOICE (assumption log
entry 5). -/
def Obligations.ByteFoldFoldsOneByte : Prop :=
  ∀ s : State, s.CanRead s.ctx.ptr 1 → 1 ≤ s.ctx.rem →
    ∃ v, exec .byteFold s = .next { s with
        ctx := { s.ctx with crc0 := v, ptr := s.ctx.ptr + 1, rem := s.ctx.rem - 1 },
        reads := s.reads ++ [{ addr := s.ctx.ptr, width := 1 }] } ∧
      v = entry s.vt 0 (((s.ctx.crc0 ^^^ (s.mem.read s.ctx.ptr).setWidth 32) &&& 0xFF).setWidth 8) ^^^
        (s.ctx.crc0 >>> 8) ∧
      (s.TablesBuilt → v = byteFoldSpec s.ctx.crc0 (s.mem.read s.ctx.ptr))

/-- Rule R122: `BLOCK_FOLD` of an aligned block of the buffer, of either width: one lookup in each of `N` rows, which
with the tables built is the fold of the `N` bytes. That it runs alone in every mode, on whatever the tables hold, and of
a width that is not the build's `BLOCK`, is the model's DESIGN CHOICE (assumption log entry 5). -/
def Obligations.BlockFoldFoldsTheBlock : Prop :=
  ∀ (s : State) (n : BlockWidth), s.CanRead s.ctx.ptr n.bytes → n.bytes ≤ s.ctx.rem →
    s.ctx.ptr % n.bytes = 0 →
    ∃ v, exec (.blockFold n) s = .next { s with
        ctx := { s.ctx with crc0 := v, ptr := s.ctx.ptr + n.bytes, rem := s.ctx.rem - n.bytes },
        reads := s.reads ++ [{ addr := s.ctx.ptr, width := n.bytes }] } ∧
      v = (List.range n.bytes).foldl (fun sum j => sum ^^^ entry s.vt (n.bytes - 1 - j)
        (if j < 4 then s.mem.read (s.ctx.ptr + j) ^^^ s.ctx.crc0.extractLsb' (8 * j) 8
          else s.mem.read (s.ctx.ptr + j))) 0 ∧
      (s.TablesBuilt → v = rawFold s.ctx.crc0 (s.mem.bytes s.ctx.ptr n.bytes))

/-- Rule R141: `WORD_STEP` of an aligned word, of either width, into each accumulator: the fold of its bytes, lowest
address first; it does not touch `PTR` or `REM`. With the tables built the table form of the rule gives the same. In mode
`Ready` the unit must be there to be used (rule R140); that the operation runs in the other modes, whatever `HWCAP` is,
and of a width that is not the build's `WORD`, is the model's DESIGN CHOICE (assumption log entries 23, 5). -/
def Obligations.WordStepFoldsTheWord : Prop :=
  ∀ (s : State) (w : WordWidth), s.HwUsable → s.CanRead s.port.wordAddr w.bytes →
    s.port.wordAddr % w.bytes = 0 →
    exec (.wordStep w) s = .next { s with
      ctx := s.ctx.setAcc s.port.acc (rawFold (s.ctx.acc s.port.acc) (s.mem.bytes s.port.wordAddr w.bytes)),
      reads := s.reads ++ [{ addr := s.port.wordAddr, width := w.bytes }] } ∧
    (s.TablesBuilt → rawFold (s.ctx.acc s.port.acc) (s.mem.bytes s.port.wordAddr w.bytes) =
      (List.range w.bytes).foldl (fun sum j => sum ^^^ entry s.vt (w.bytes - 1 - j)
        (if j < 4 then s.mem.read (s.port.wordAddr + j) ^^^ (s.ctx.acc s.port.acc).extractLsb' (8 * j) 8
          else s.mem.read (s.port.wordAddr + j))) 0)

/-- Rule R145: `STREAM3` folds three adjacent streams of `B` bytes, the first from `CRC0`, the others from zero, in
aligned word reads that cover the `3 × B` bytes exactly once; it does not change `PTR` or `REM`. In mode `Ready` the
unit must be there to be used (rule R140). That the operation runs in the other modes, whatever `HWCAP` is, and that it
runs where `REM` is below the rule's `3 × B`, is the model's DESIGN CHOICE (assumption log entries 23, 9). -/
def Obligations.Stream3FoldsThreeStreams : Prop :=
  ∀ (s : State) (t : TableSel), s.cfg.wf = true → s.HwUsable → s.CanRead s.ctx.ptr (3 * s.cfg.streamLen t) →
    s.ctx.ptr % s.cfg.word.bytes = 0 →
    ∃ rs, exec (.stream3 t) s = .next { s with
        ctx := { s.ctx with
          crc0 := rawFold s.ctx.crc0 (s.mem.bytes s.ctx.ptr (s.cfg.streamLen t)),
          crc1 := rawFold 0 (s.mem.bytes (s.ctx.ptr + s.cfg.streamLen t) (s.cfg.streamLen t)),
          crc2 := rawFold 0 (s.mem.bytes (s.ctx.ptr + 2 * s.cfg.streamLen t) (s.cfg.streamLen t)) },
        reads := s.reads ++ rs } ∧
      (accessBytes rs).Perm (List.range' s.ctx.ptr (3 * s.cfg.streamLen t)) ∧
      ∀ x ∈ rs, x.width = s.cfg.word.bytes ∧ x.addr % x.width = 0

/-- Rule R150: `RECOMBINE`: two shifts by the table its select bit names, each followed by an XOR, the second on the
result of the first; it writes `CRC0` alone. In mode `Ready` the unit must be there to be used (rule R140); that the
operation runs in the other modes, whatever `HWCAP` is, is the model's DESIGN CHOICE (assumption log entry 23). -/
def Obligations.RecombineShiftsTwice : Prop :=
  ∀ (s : State) (t : TableSel), s.HwUsable →
    ∃ v, exec (.recombine t) s = .next { s with ctx := { s.ctx with crc0 := v } } ∧
      v = shiftApply (s.shiftTable t) (shiftApply (s.shiftTable t) s.ctx.crc0 ^^^ s.ctx.crc1) ^^^ s.ctx.crc2 ∧
      (s.TablesBuilt → v = zn (zn s.ctx.crc0 (s.cfg.streamLen t) ^^^ s.ctx.crc1) (s.cfg.streamLen t) ^^^ s.ctx.crc2)

/-- Rules R145, R150: a `STREAM3` and the `RECOMBINE` of the same select bit fold the `3 × B` bytes into `CRC0` as one
stream. In mode `Ready` the unit must be there to be used (rule R140). That the two run in the other modes, whatever
`HWCAP` is, and where `REM` is below the rule's `3 × B`, is the model's DESIGN CHOICE (assumption log entries 23, 9). -/
def Obligations.RoundFoldsItsBytesInOrder : Prop :=
  ∀ (s : State) (t : TableSel), s.cfg.wf = true → s.TablesBuilt → s.HwUsable →
    s.CanRead s.ctx.ptr (3 * s.cfg.streamLen t) → s.ctx.ptr % s.cfg.word.bytes = 0 →
    ∃ u, andThen (exec (.stream3 t) s) (exec (.recombine t)) = .next u ∧
      u.ctx.crc0 = rawFold s.ctx.crc0 (s.mem.bytes s.ctx.ptr (3 * s.cfg.streamLen t)) ∧
      u.ctx.ptr = s.ctx.ptr ∧ u.ctx.rem = s.ctx.rem

/-- Rules R127, R128: `SW_APPEND` of the latched operands, in every mode (DESIGN CHOICE, assumption log entry 5): it
returns the CRC, ends with `PHASE = IDLE`, the whole buffer consumed, and changes no register but `CRC0`, `PTR`, `REM`
and the result. -/
def Obligations.SwAppendReturnsTheCrc : Prop :=
  ∀ s : State, s.cfg.wf = true → s.TablesBuilt → s.CanRead s.port.addr s.port.len →
    ∃ rs, exec .swAppend s = .next { s with
      ctx := { s.ctx with
        crc0 := crcOf s.port.crc (s.mem.bytes s.port.addr s.port.len), ptr := s.port.addr + s.port.len, rem := 0,
        phase := .idle },
      result := crcOf s.port.crc (s.mem.bytes s.port.addr s.port.len),
      reads := s.reads ++ rs }

/-- Rules R151, R152: `HW_APPEND` of the latched operands, where the unit may be used (rule R140; in the modes other than
`Ready` the model's DESIGN CHOICE, assumption log entries 5, 23) and for every legal choice of `WORD`, `LONG`, `SHORT`: it
returns what `SW_APPEND` returns; beside the registers `SW_APPEND` changes it leaves values in `CRC1` and `CRC2`. -/
def Obligations.HwAppendReturnsTheCrc : Prop :=
  ∀ s : State, s.cfg.wf = true → s.TablesBuilt → s.HwUsable → s.CanRead s.port.addr s.port.len →
    (∃ rs c₁ c₂, exec .hwAppend s = .next { s with
      ctx := {
        crc0 := crcOf s.port.crc (s.mem.bytes s.port.addr s.port.len), crc1 := c₁, crc2 := c₂,
        ptr := s.port.addr + s.port.len, rem := 0, phase := .idle },
      result := crcOf s.port.crc (s.mem.bytes s.port.addr s.port.len),
      reads := s.reads ++ rs }) ∧
    ∃ t u, exec .hwAppend s = .next t ∧ exec .swAppend s = .next u ∧ t.result = u.result

/-- Rules R25, R127, R151: a turn of the sequencer stays in its phase or goes to the next one, never back. -/
def Obligations.PhasesFollowInOrder : Prop :=
  ∀ s t : State, seqStep s = .next t → t.ctx.phase = s.ctx.phase ∨ t.ctx.phase = s.ctx.phase.after

/-- Rule R26: a turn of the sequencer adds to `PTR` what it takes off `REM`, in every state. -/
def Obligations.PtrPlusRemIsConstant : Prop :=
  ∀ s t : State, seqStep s = .next t →
    t.ctx.ptr + t.ctx.rem = s.ctx.ptr + s.ctx.rem ∧ t.ctx.rem ≤ s.ctx.rem

/-- The folds run on their own where a precondition of rules R121, R122, R141, R145 is broken: they complete, with the
value the rule does not state left open, and everything else as the rule says (the model's choice, assumption log
entries 8, 9). A byte fold and a block fold past the end of the buffer leave `REM` open; a block fold, a word step and a
`STREAM3` at an address that is not aligned leave the accumulators they write open. A word step and a `STREAM3`
need the unit in mode `Ready` (rule R140), and run in the other modes by assumption log entry 23. -/
def Obligations.FoldsOutsideTheirPreconditionsComplete : Prop :=
  (∀ s : State, s.CanRead s.ctx.ptr 1 → s.ctx.rem = 0 →
    ∃ r, r < 2 ^ s.cfg.addrW ∧ exec .byteFold s = .next { s with
      ctx := { s.ctx with
        crc0 := byteFoldValue s.vt s.ctx.crc0 (s.mem.read s.ctx.ptr), ptr := s.ctx.ptr + 1, rem := r },
      reads := s.reads ++ [{ addr := s.ctx.ptr, width := 1 }], freeCount := s.freeCount + 1 }) ∧
  (∀ (s : State) (n : BlockWidth), s.CanRead s.ctx.ptr n.bytes →
    ∃ v r k, exec (.blockFold n) s = .next { s with
        ctx := { s.ctx with crc0 := v, ptr := s.ctx.ptr + n.bytes, rem := r },
        reads := s.reads ++ [{ addr := s.ctx.ptr, width := n.bytes }], freeCount := k } ∧
      (s.ctx.ptr % n.bytes = 0 →
        v = blockFoldValue s.vt n.bytes s.ctx.crc0 (s.mem.bytes s.ctx.ptr n.bytes)) ∧
      (n.bytes ≤ s.ctx.rem → r = s.ctx.rem - n.bytes)) ∧
  (∀ (s : State) (w : WordWidth), s.HwUsable → s.CanRead s.port.wordAddr w.bytes →
    s.port.wordAddr % w.bytes ≠ 0 →
    ∃ v, exec (.wordStep w) s = .next { s with
      ctx := s.ctx.setAcc s.port.acc v,
      reads := s.reads ++ [{ addr := s.port.wordAddr, width := w.bytes }], freeCount := s.freeCount + 1 }) ∧
  ∀ (s : State) (t : TableSel), s.HwUsable → s.CanRead s.ctx.ptr (3 * s.cfg.streamLen t) →
    s.ctx.ptr % s.cfg.word.bytes ≠ 0 →
    ∃ v₀ v₁ v₂ rs, exec (.stream3 t) s = .next { s with
      ctx := { s.ctx with crc0 := v₀, crc1 := v₁, crc2 := v₂ },
      reads := s.reads ++ rs, freeCount := s.freeCount + 3 }

/-- Rules R40, R49: an operation that reads a byte at an address that does not exist faults, and one that reads a byte
the platform does not back is refused (which of the two stops it is: assumption log entry 10). The operations of
datapath HW need the unit in mode `Ready` (rule R140), and run in the other modes by assumption log entry 23. -/
def Obligations.ReadsThatCannotBeServedStop : Prop :=
  ∀ (s : State) (i : Instr) (a n : Nat),
    (i = .byteFold ∧ a = s.ctx.ptr ∧ n = 1) ∨ (∃ b, i = .blockFold b ∧ a = s.ctx.ptr ∧ n = b.bytes) ∨
      (s.HwUsable ∧ ∃ w, i = .wordStep w ∧ a = s.port.wordAddr ∧ n = w.bytes) ∨
      (s.HwUsable ∧ ∃ t, i = .stream3 t ∧ a = s.ctx.ptr ∧ n = 3 * s.cfg.streamLen t) →
    (2 ^ s.cfg.addrW < a + n → exec i s = .fault .outsideAddressSpace) ∧
    (a + n ≤ 2 ^ s.cfg.addrW → s.mapped a n = false → exec i s = .refused .unreadableBuffer)

/-- Rule R140: in mode `Ready` with `HWCAP = 0` no rule of datapath HW is executed: its four operations are refused (which
stop it is: the model's DESIGN CHOICE, assumption log entry 23). Rule R165: with `HWCAP = 0` the run inside an `APPEND` is
that of `SW_APPEND`, which does not touch the `CRC1` and `CRC2` of the context it is given. And no instruction that is
answered leaves another value in the `CRC1` or `CRC2` of the context `ctx` (an `APPEND` has its own, and puts that one
back). -/
def Obligations.WithoutTheUnitNothingOfHwRuns : Prop :=
  (∀ s : State, s.mode = .ready → s.hwcap = false →
    (∀ w, exec (.wordStep w) s = .refused .hwUnitAbsent) ∧ (∀ t, exec (.stream3 t) s = .refused .hwUnitAbsent) ∧
      (∀ t, exec (.recombine t) s = .refused .hwUnitAbsent) ∧ exec .hwAppend s = .refused .hwUnitAbsent) ∧
  (∀ (s : State) (crc : Word) (addr len : Nat), s.hwcap = false →
    runDatapath crc addr len s = swAppend crc addr len s ∧
      ∀ t, runDatapath crc addr len s = .next t → t.ctx.crc1 = s.ctx.crc1 ∧ t.ctx.crc2 = s.ctx.crc2) ∧
  ∀ (i : Instr) (s t : State), s.mode = .ready → s.hwcap = false → exec i s = .next t →
    t.ctx.crc1 = s.ctx.crc1 ∧ t.ctx.crc2 = s.ctx.crc2
end

