-- ==== Sys2Proof/Laws/Gf2.lean ====
section
/-!
SUPPORT. The specification functions of 00_scope.md rule R14 are linear over GF(2), and folds compose.
-/
namespace Sys2Proof.Machine

theorem xor_xor_cancel (x y p : Word) : (x ^^^ p) ^^^ (y ^^^ p) = x ^^^ y := by
  ext i hi
  simp only [BitVec.getElem_xor]
  cases x[i] <;> cases y[i] <;> cases p[i] <;> rfl

/-- `BitStep` is linear (rule R14). -/
theorem bitStep_xor (a b : Word) : bitStep (a ^^^ b) = bitStep a ^^^ bitStep b := by
  unfold bitStep
  rw [BitVec.getLsbD_xor, BitVec.ushiftRight_xor_distrib]
  generalize a >>> 1 = x
  generalize b >>> 1 = y
  cases a.getLsbD 0 <;> cases b.getLsbD 0 <;> simp only [Bool.xor_false, Bool.xor_true, Bool.not_true,
    Bool.not_false, if_true, if_false, Bool.false_eq_true]
  · ac_rfl
  · ac_rfl
  · exact (xor_xor_cancel x y poly).symm

@[simp] theorem bitStep_zero : bitStep 0#32 = 0#32 := by decide

theorem bitSteps_xor (n : Nat) (a b : Word) : bitSteps n (a ^^^ b) = bitSteps n a ^^^ bitSteps n b := by
  induction n generalizing a b with
  | zero => rfl
  | succ n ih => simp [bitSteps, bitStep_xor, ih]

@[simp] theorem bitSteps_zero (n : Nat) : bitSteps n 0#32 = 0#32 := by
  induction n with
  | zero => rfl
  | succ n ih => simp [bitSteps, ih]

theorem bitSteps_add (m n : Nat) (s : Word) : bitSteps (m + n) s = bitSteps n (bitSteps m s) := by
  induction m generalizing s with
  | zero => simp [bitSteps]
  | succ m ih => rw [Nat.succ_add]; simp [bitSteps, ih]

/-- `ByteFold` is linear in the state and the byte together (rule R14). -/
theorem byteFoldSpec_xor (a b : Word) (d e : Byte) :
    byteFoldSpec (a ^^^ b) (d ^^^ e) = byteFoldSpec a d ^^^ byteFoldSpec b e := by
  unfold byteFoldSpec
  rw [← bitSteps_xor]
  congr 1
  unfold zext
  rw [BitVec.setWidth_xor]
  ac_rfl

@[simp] theorem zext_zero : zext 0#8 = 0#32 := by decide

/-- Appending a zero byte is eight bit steps (rule R14). -/
theorem zeroByte_eq (s : Word) : zeroByte s = bitSteps 8 s := by simp [zeroByte, byteFoldSpec]

theorem zeroByte_xor (a b : Word) : zeroByte (a ^^^ b) = zeroByte a ^^^ zeroByte b := by
  simp [zeroByte_eq, bitSteps_xor]

/-- `Zn` is linear (rule R14). -/
theorem zn_xor (n : Nat) (a b : Word) : zn (a ^^^ b) n = zn a n ^^^ zn b n := by
  induction n generalizing a b with
  | zero => rfl
  | succ n ih => simp [zn, zeroByte_xor, ih]

@[simp] theorem zn_zero_state (n : Nat) : zn 0#32 n = 0#32 := by
  induction n with
  | zero => rfl
  | succ n ih => simp [zn, zeroByte_eq, ih]

theorem zn_add (m n : Nat) (s : Word) : zn s (m + n) = zn (zn s m) n := by
  induction m generalizing s with
  | zero => simp [zn]
  | succ m ih => rw [Nat.succ_add]; simp [zn, ih]

/-- `n` zero bytes are `8n` bit steps (rule R14). -/
theorem zn_eq_bitSteps (n : Nat) (s : Word) : zn s n = bitSteps (8 * n) s := by
  induction n generalizing s with
  | zero => rfl
  | succ n ih => rw [zn, ih, zeroByte_eq, ← bitSteps_add]; congr 1; omega

/-- Folding a buffer is folding its parts in order (rule R42). -/
theorem rawFold_append (s : Word) (a b : List Byte) : rawFold s (a ++ b) = rawFold (rawFold s a) b := by
  induction a generalizing s with
  | nil => rfl
  | cons d a ih => simp [rawFold, ih]

/-- The state enters a fold linearly: it is carried past as many zero bytes. -/
theorem rawFold_xor (s t : Word) (l : List Byte) : rawFold (s ^^^ t) l = zn s l.length ^^^ rawFold t l := by
  induction l generalizing s t with
  | nil => rfl
  | cons d l ih =>
    simp only [rawFold, List.length_cons, zn]
    rw [← ih, zeroByte]
    congr 1
    rw [← byteFoldSpec_xor]
    simp

/-! ## Placed bytes and linear maps -/

/-- A word is the XOR of its four placed bytes (rule R11). -/
theorem word_bytes (c : Word) : c = zext (byteOf c 0) ^^^ (zext (byteOf c 1) <<< 8) ^^^ (zext (byteOf c 2) <<< 16) ^^^ (zext (byteOf c 3) <<< 24) := by
  apply BitVec.eq_of_getLsbD_eq
  intro i hi
  simp only [zext, byteOf, BitVec.getLsbD_xor, BitVec.getLsbD_shiftLeft, BitVec.getLsbD_setWidth, BitVec.getLsbD_extractLsb']
  interval_cases i <;> simp

/-- A zero byte moves a placed byte one place down (rule R122). -/
theorem zeroByte_placed (b : Byte) : ∀ j, 1 ≤ j → j < 4 → zeroByte (zext b <<< (8*j)) = zext b <<< (8*(j-1)) := by
  intro j h1 h2
  rw [zeroByte_eq]
  have : ∀ x : Word, x.extractLsb' 0 8 = 0 → bitSteps 8 x = x >>> 8 := by
    intro x hx
    have hb : ∀ i, i < 8 → x.getLsbD i = false := by
      intro i hi
      have := congrArg (·.getLsbD i) hx
      simpa [BitVec.getLsbD_extractLsb', hi] using this
    have key : ∀ n, n ≤ 8 → bitSteps n x = x >>> n := by
      intro n hn
      induction n with
      | zero => simp [bitSteps]
      | succ n ih =>
        rw [show n + 1 = n + 1 from rfl, bitSteps_add n 1, ih (by omega)]
        simp only [bitSteps, bitStep, BitVec.getLsbD_ushiftRight]
        rw [show n + 0 = n from rfl, hb n (by omega)]
        simp [BitVec.shiftRight_add]
    exact key 8 (by omega)
  rw [this]
  · apply BitVec.eq_of_getLsbD_eq
    intro i hi
    simp only [zext, BitVec.getLsbD_ushiftRight, BitVec.getLsbD_shiftLeft, BitVec.getLsbD_setWidth]
    have e : 8 + i - 8 * j = i - 8 * (j - 1) ∨ i < 8 * (j-1) := by omega
    rcases e with e | e
    · rw [e]
      by_cases h : 8 + i < 32
      · by_cases h' : i < 8*(j-1)
        · simp [h', hi, show 8 + i < 8 * j by omega]
        · simp [h', hi, h, show ¬ 8 + i < 8 * j by omega]
      · have : b.getLsbD (i - 8 * (j-1)) = false := BitVec.getLsbD_of_ge _ _ (by omega)
        simp [this]
    · simp [e, show 8 + i < 8 * j by omega]
  · apply BitVec.eq_of_getLsbD_eq
    intro i hi
    simp only [BitVec.getLsbD_extractLsb', BitVec.getLsbD_shiftLeft]
    simp [show i < 8 * j by omega]

/-- A placed byte pushed through `n` zero bytes (rule R122: `Zn(b << 8j, N) = Zn(b, N - j)`). -/
theorem zn_placed (b : Byte) (n : Nat) : ∀ j, j < 4 → j ≤ n → zn (zext b <<< (8*j)) n = zn (zext b) (n-j) := by
  intro j
  induction j generalizing n with
  | zero => simp
  | succ j ih =>
    intro h1 h2
    obtain ⟨n, rfl⟩ : ∃ m, n = m+1 := ⟨n-1, by omega⟩
    rw [zn, zeroByte_placed b (j+1) (by omega) h1, show j+1-1 = j from rfl, ih n (by omega) (by omega)]
    congr 1; omega

/-- `ByteFold(s, d) = Z(s ^ d)` (rule R14). -/
theorem byteFoldSpec_eq (s : Word) (d : Byte) : byteFoldSpec s d = zeroByte (s ^^^ zext d) := by
  simp [zeroByte_eq, byteFoldSpec]

/-- A word is its low byte and the rest. -/
theorem low_byte_split (x : Word) : x = zext (byteOf x 0) ^^^ ((x >>> 8) <<< 8) := by
  apply BitVec.eq_of_getLsbD_eq
  intro i hi
  simp only [zext, byteOf, BitVec.getLsbD_xor, BitVec.getLsbD_shiftLeft, BitVec.getLsbD_setWidth, BitVec.getLsbD_extractLsb', BitVec.getLsbD_ushiftRight]
  interval_cases i <;> simp

/-- Eight bit steps of a word whose low byte is zero are a plain shift (rule R112). -/
theorem bitSteps_shl (x : Word) (h : x >>> 24 = 0) : bitSteps 8 (x <<< 8) = x := by
  have hb : ∀ i, i < 8 → (x <<< 8).getLsbD i = false := by
    intro i hi
    simp [hi]
  have key : ∀ n, n ≤ 8 → bitSteps n (x <<< 8) = (x <<< 8) >>> n := by
    intro n hn
    induction n with
    | zero => simp [bitSteps]
    | succ n ih =>
      rw [bitSteps_add n 1, ih (by omega)]
      simp only [bitSteps, bitStep, BitVec.getLsbD_ushiftRight]
      rw [show n + 0 = n from rfl, hb n (by omega)]
      simp [BitVec.shiftRight_add]
  rw [key 8 (by omega)]
  apply BitVec.eq_of_getLsbD_eq
  intro i hi
  simp only [BitVec.getLsbD_ushiftRight, BitVec.getLsbD_shiftLeft]
  by_cases h8 : 8 + i < 32
  · simp [h8]
  · have := congrArg (·.getLsbD (i - 24)) h
    simp only [BitVec.getLsbD_ushiftRight] at this
    rw [show 24 + (i - 24) = i by omega] at this
    simp [h8, this]

/-- Two linear maps that agree on the basis vectors are equal (rule R80). -/
theorem linear_ext (f g : Word → Word) (hf : ∀ a b, f (a ^^^ b) = f a ^^^ f b) (hg : ∀ a b, g (a ^^^ b) = g a ^^^ g b)
    (h : ∀ i, i < 32 → f ((1:Word) <<< i) = g ((1:Word) <<< i)) (v : Word) : f v = g v := by
  have f0 : f 0 = 0 := by have := hf 0 0; simpa using this
  have g0 : g 0 = 0 := by have := hg 0 0; simpa using this
  have key : ∀ n, n ≤ 32 → ∀ v : Word, (∀ i, n ≤ i → v.getLsbD i = false) → f v = g v := by
    intro n
    induction n with
    | zero => 
      intro _ v hv
      have : v = 0 := BitVec.eq_of_getLsbD_eq (fun i hi => by simp [hv i (by omega)])
      rw [this, f0, g0]
    | succ n ih =>
      intro hn v hv
      by_cases hb : v.getLsbD n = true
      · have e : v = (v ^^^ (1:Word) <<< n) ^^^ (1:Word) <<< n := by rw [BitVec.xor_assoc]; simp
        rw [e, hf, hg, h n (by omega)]
        congr 1
        apply ih (by omega)
        intro i hi
        rw [BitVec.getLsbD_xor, show (1:Word) <<< n = BitVec.twoPow 32 n by simp [BitVec.twoPow], BitVec.getLsbD_twoPow]
        by_cases hin : n = i
        · subst hin; simp [hb]; omega
        · simp [hin, hv i (by omega)]
      · apply ih (by omega)
        intro i hi
        by_cases hin : i = n
        · subst hin; simpa using hb
        · exact hv i (by omega)
  exact key 32 le_rfl v (fun i hi => BitVec.getLsbD_of_ge _ _ hi)

/-- The state enters a fold as if from zero, and is carried past the data. -/
theorem rawFold_from_zero (s : Word) (l : List Byte) : rawFold s l = zn s l.length ^^^ rawFold 0 l := by
  simpa using rawFold_xor s 0 l

end Sys2Proof.Machine
end

