-- ==== Sys2Proof/Laws/Memory.lean ====
section
/-!
SUPPORT. The laws of the host's memory: a read after a write, and the canonical form that every memory operation keeps.
-/
namespace Sys2Proof.Machine

/-- No cell of the memory stands below `k`. -/
theorem Memory.read_below {m : Memory} {k : Nat} (h : ∀ c ∈ m, k < c.1) : m.read k = blankByte := by
  induction m with
  | nil => rfl
  | cons c m ih =>
    have hc : k < c.1 := h c (by simp)
    have hne : c.1 ≠ k := by omega
    simp only [Memory.read, hne, if_false]
    exact ih fun d hd => h d (by simp [hd])

/-- A canonical memory is one cell, then a canonical memory above it. -/
theorem Memory.wf_cons {k : Nat} {b : Byte} {m : Memory} :
    Memory.wf ((k, b) :: m) = true ↔ b ≠ blankByte ∧ (∀ c ∈ m, k < c.1) ∧ m.wf = true := by
  simp [Memory.wf, and_assoc]

/-- The cells of a memory after a write stand where they stood, or at the address written. -/
theorem Memory.mem_write {m : Memory} {a : Nat} {b : Byte} {c : Host.Cell} (h : c ∈ m.write a b) :
    c ∈ m ∨ c = (a, b) := by
  induction m with
  | nil =>
    simp only [Memory.write] at h
    split at h <;> simp_all
  | cons d m ih =>
    obtain ⟨k, v⟩ := d
    simp only [Memory.write] at h
    split at h
    · split at h <;> simp_all; tauto
    · split at h
      · split at h <;> simp_all; tauto
      · rcases List.mem_cons.mp h with h | h
        · simp [h]
        · rcases ih h with h | h <;> simp [h]

/-- A write keeps the canonical form. -/
theorem Memory.write_wf {m : Memory} (h : m.wf = true) (a : Nat) (b : Byte) : (m.write a b).wf = true := by
  induction m with
  | nil => simp only [Memory.write]; split <;> simp_all [Memory.wf]
  | cons d m ih =>
    obtain ⟨k, v⟩ := d
    obtain ⟨hv, hm, hwf⟩ := Memory.wf_cons.mp h
    simp only [Memory.write]
    split
    · split
      · exact h
      · rename_i ha hb
        refine Memory.wf_cons.mpr ⟨hb, ?_, h⟩
        intro c hc
        rcases List.mem_cons.mp hc with rfl | hc
        · exact ha
        · exact Nat.lt_trans ha (hm c hc)
    · split
      · rename_i ha
        subst ha
        split
        · exact hwf
        · rename_i hb
          exact Memory.wf_cons.mpr ⟨hb, hm, hwf⟩
      · rename_i h1 h2
        refine Memory.wf_cons.mpr ⟨hv, ?_, ih hwf⟩
        intro c hc
        rcases Memory.mem_write hc with hc | rfl
        · exact hm c hc
        · show k < a; omega

/-- The byte just written is read back. -/
theorem Memory.read_write_same {m : Memory} (h : m.wf = true) (a : Nat) (b : Byte) : (m.write a b).read a = b := by
  induction m with
  | nil =>
    simp only [Memory.write]
    split <;> simp_all [Memory.read]
  | cons d m ih =>
    obtain ⟨k, v⟩ := d
    obtain ⟨hv, hm, hwf⟩ := Memory.wf_cons.mp h
    simp only [Memory.write]
    split
    · rename_i ha
      split
      · rename_i hb
        subst hb
        apply Memory.read_below
        intro c hc
        rcases List.mem_cons.mp hc with rfl | hc
        · exact ha
        · exact Nat.lt_trans ha (hm c hc)
      · simp [Memory.read]
    · split
      · rename_i ha
        subst ha
        split
        · rename_i hb
          subst hb
          exact Memory.read_below hm
        · simp [Memory.read]
      · rename_i h1 h2
        have hne : k ≠ a := fun h => h2 h.symm
        simpa [Memory.read, hne] using ih hwf

/-- A write leaves every other address alone. -/
theorem Memory.read_write_other (m : Memory) {a c : Nat} (b : Byte) (h : c ≠ a) : (m.write a b).read c = m.read c := by
  have h' : a ≠ c := fun e => h e.symm
  induction m with
  | nil => simp only [Memory.write]; split <;> simp [Memory.read, h']
  | cons d m ih =>
    obtain ⟨k, v⟩ := d
    simp only [Memory.write]
    split
    · split <;> simp [Memory.read, h']
    · split
      · rename_i ha
        subst ha
        split <;> simp [Memory.read, h']
      · simp [Memory.read, ih]

@[simp] theorem Memory.bytes_length (m : Memory) (a n : Nat) : (m.bytes a n).length = n := by
  induction n generalizing a with
  | zero => rfl
  | succ n ih => simp [Memory.bytes, ih]

/-- A buffer is its first `m` bytes and the rest (rule R42). -/
theorem Memory.bytes_add (mem : Memory) (a m n : Nat) :
    mem.bytes a (m + n) = mem.bytes a m ++ mem.bytes (a + m) n := by
  induction m generalizing a with
  | zero => simp [Memory.bytes]
  | succ m ih =>
    rw [Nat.succ_add]
    simp only [Memory.bytes, List.cons_append, ih]
    rw [Nat.add_right_comm, Nat.add_assoc]

/-- Byte `i` of `MemRead(a, n)` is the byte at `a + i` (rule R41). -/
theorem Memory.bytes_getElem (mem : Memory) (a n i : Nat) (h : i < (mem.bytes a n).length) :
    (mem.bytes a n)[i] = mem.read (a + i) := by
  induction n generalizing a i with
  | zero => simp [Memory.bytes] at h
  | succ n ih =>
    cases i with
    | zero => simp [Memory.bytes]
    | succ i =>
      simp only [Memory.bytes, List.getElem_cons_succ]
      rw [ih]
      congr 1
      omega

/-- A host write inside the address space keeps the memory in order (rule R40). -/
theorem takeHostWrite_memoryOk {s t : State} {a : Nat} {b : Byte} (h : s.MemoryOk)
    (e : s.takeHostWrite a b = .next t) : t.MemoryOk ∧ t = { s with mem := s.mem.write a b } := by
  unfold State.takeHostWrite at e
  split at e
  · rename_i ha
    cases e
    refine ⟨⟨Memory.write_wf h.1 a b, ?_⟩, rfl⟩
    intro c hc
    rcases Memory.mem_write hc with hc | rfl
    · exact h.2 c hc
    · exact ha
  · cases e

end Sys2Proof.Machine
end

