-- ==== Sys2Proof/Laws/State.lean ====
section
/-!
SUPPORT. One lemma for each field and each update of the state: what the update leaves and what it writes, so that no
later proof unfolds a record update.
-/
namespace Sys2Proof.Machine

/-! `State.respond` answers a request (rule R62). -/
@[simp] theorem respond_cfg (s : State) (x : Status) (v : Word) : (s.respond x v).cfg = s.cfg := rfl
@[simp] theorem respond_mode (s : State) (x : Status) (v : Word) : (s.respond x v).mode = s.mode := rfl
@[simp] theorem respond_hwcap (s : State) (x : Status) (v : Word) : (s.respond x v).hwcap = s.hwcap := rfl
@[simp] theorem respond_fcode (s : State) (x : Status) (v : Word) : (s.respond x v).fcode = s.fcode := rfl
@[simp] theorem respond_vt (s : State) (x : Status) (v : Word) : (s.respond x v).vt = s.vt := rfl
@[simp] theorem respond_lt (s : State) (x : Status) (v : Word) : (s.respond x v).lt = s.lt := rfl
@[simp] theorem respond_st (s : State) (x : Status) (v : Word) : (s.respond x v).st = s.st := rfl
@[simp] theorem respond_even (s : State) (x : Status) (v : Word) : (s.respond x v).even = s.even := rfl
@[simp] theorem respond_odd (s : State) (x : Status) (v : Word) : (s.respond x v).odd = s.odd := rfl
@[simp] theorem respond_ctx (s : State) (x : Status) (v : Word) : (s.respond x v).ctx = s.ctx := rfl
@[simp] theorem respond_hwcapIn (s : State) (x : Status) (v : Word) : (s.respond x v).hwcapIn = s.hwcapIn := rfl
@[simp] theorem respond_mem (s : State) (x : Status) (v : Word) : (s.respond x v).mem = s.mem := rfl
@[simp] theorem respond_unmapped (s : State) (x : Status) (v : Word) : (s.respond x v).unmapped = s.unmapped := rfl
@[simp] theorem respond_events (s : State) (x : Status) (v : Word) : (s.respond x v).events = s.events := rfl
@[simp] theorem respond_responses (s : State) (x : Status) (v : Word) : (s.respond x v).responses = s.responses ++ [{ status := x, value := v }] := rfl
@[simp] theorem respond_reads (s : State) (x : Status) (v : Word) : (s.respond x v).reads = s.reads := rfl
@[simp] theorem respond_uop (s : State) (x : Status) (v : Word) : (s.respond x v).uop = s.uop := rfl
@[simp] theorem respond_port (s : State) (x : Status) (v : Word) : (s.respond x v).port = s.port := rfl
@[simp] theorem respond_result (s : State) (x : Status) (v : Word) : (s.respond x v).result = s.result := rfl
@[simp] theorem respond_opMat (s : State) (x : Status) (v : Word) : (s.respond x v).opMat = s.opMat := rfl
@[simp] theorem respond_freeCount (s : State) (x : Status) (v : Word) : (s.respond x v).freeCount = s.freeCount := rfl

/-! `State.raiseFault` takes the fatal fault (rule R182). -/
@[simp] theorem raiseFault_cfg (s : State) (x : Status) : (s.raiseFault x).cfg = s.cfg := rfl
@[simp] theorem raiseFault_mode (s : State) (x : Status) : (s.raiseFault x).mode = .faulted := rfl
@[simp] theorem raiseFault_hwcap (s : State) (x : Status) : (s.raiseFault x).hwcap = s.hwcap := rfl
@[simp] theorem raiseFault_fcode (s : State) (x : Status) : (s.raiseFault x).fcode = x.code := rfl
@[simp] theorem raiseFault_vt (s : State) (x : Status) : (s.raiseFault x).vt = s.vt := rfl
@[simp] theorem raiseFault_lt (s : State) (x : Status) : (s.raiseFault x).lt = s.lt := rfl
@[simp] theorem raiseFault_st (s : State) (x : Status) : (s.raiseFault x).st = s.st := rfl
@[simp] theorem raiseFault_even (s : State) (x : Status) : (s.raiseFault x).even = s.even := rfl
@[simp] theorem raiseFault_odd (s : State) (x : Status) : (s.raiseFault x).odd = s.odd := rfl
@[simp] theorem raiseFault_ctx (s : State) (x : Status) : (s.raiseFault x).ctx = s.ctx := rfl
@[simp] theorem raiseFault_hwcapIn (s : State) (x : Status) : (s.raiseFault x).hwcapIn = s.hwcapIn := rfl
@[simp] theorem raiseFault_mem (s : State) (x : Status) : (s.raiseFault x).mem = s.mem := rfl
@[simp] theorem raiseFault_unmapped (s : State) (x : Status) : (s.raiseFault x).unmapped = s.unmapped := rfl
@[simp] theorem raiseFault_events (s : State) (x : Status) : (s.raiseFault x).events = s.events := rfl
@[simp] theorem raiseFault_responses (s : State) (x : Status) : (s.raiseFault x).responses = s.responses ++ [{ status := x, value := 0 }] := rfl
@[simp] theorem raiseFault_reads (s : State) (x : Status) : (s.raiseFault x).reads = s.reads := rfl
@[simp] theorem raiseFault_uop (s : State) (x : Status) : (s.raiseFault x).uop = s.uop := rfl
@[simp] theorem raiseFault_port (s : State) (x : Status) : (s.raiseFault x).port = s.port := rfl
@[simp] theorem raiseFault_result (s : State) (x : Status) : (s.raiseFault x).result = s.result := rfl
@[simp] theorem raiseFault_opMat (s : State) (x : Status) : (s.raiseFault x).opMat = s.opMat := rfl
@[simp] theorem raiseFault_freeCount (s : State) (x : Status) : (s.raiseFault x).freeCount = s.freeCount := rfl

/-! `State.setAcc` writes an accumulator (rule R26). -/
@[simp] theorem setAcc_cfg (s : State) (a : AccSel) (v : Word) : (s.setAcc a v).cfg = s.cfg := rfl
@[simp] theorem setAcc_mode (s : State) (a : AccSel) (v : Word) : (s.setAcc a v).mode = s.mode := rfl
@[simp] theorem setAcc_hwcap (s : State) (a : AccSel) (v : Word) : (s.setAcc a v).hwcap = s.hwcap := rfl
@[simp] theorem setAcc_fcode (s : State) (a : AccSel) (v : Word) : (s.setAcc a v).fcode = s.fcode := rfl
@[simp] theorem setAcc_vt (s : State) (a : AccSel) (v : Word) : (s.setAcc a v).vt = s.vt := rfl
@[simp] theorem setAcc_lt (s : State) (a : AccSel) (v : Word) : (s.setAcc a v).lt = s.lt := rfl
@[simp] theorem setAcc_st (s : State) (a : AccSel) (v : Word) : (s.setAcc a v).st = s.st := rfl
@[simp] theorem setAcc_even (s : State) (a : AccSel) (v : Word) : (s.setAcc a v).even = s.even := rfl
@[simp] theorem setAcc_odd (s : State) (a : AccSel) (v : Word) : (s.setAcc a v).odd = s.odd := rfl
@[simp] theorem setAcc_ctx (s : State) (a : AccSel) (v : Word) : (s.setAcc a v).ctx = s.ctx.setAcc a v := rfl
@[simp] theorem setAcc_hwcapIn (s : State) (a : AccSel) (v : Word) : (s.setAcc a v).hwcapIn = s.hwcapIn := rfl
@[simp] theorem setAcc_mem (s : State) (a : AccSel) (v : Word) : (s.setAcc a v).mem = s.mem := rfl
@[simp] theorem setAcc_unmapped (s : State) (a : AccSel) (v : Word) : (s.setAcc a v).unmapped = s.unmapped := rfl
@[simp] theorem setAcc_events (s : State) (a : AccSel) (v : Word) : (s.setAcc a v).events = s.events := rfl
@[simp] theorem setAcc_responses (s : State) (a : AccSel) (v : Word) : (s.setAcc a v).responses = s.responses := rfl
@[simp] theorem setAcc_reads (s : State) (a : AccSel) (v : Word) : (s.setAcc a v).reads = s.reads := rfl
@[simp] theorem setAcc_uop (s : State) (a : AccSel) (v : Word) : (s.setAcc a v).uop = s.uop := rfl
@[simp] theorem setAcc_port (s : State) (a : AccSel) (v : Word) : (s.setAcc a v).port = s.port := rfl
@[simp] theorem setAcc_result (s : State) (a : AccSel) (v : Word) : (s.setAcc a v).result = s.result := rfl
@[simp] theorem setAcc_opMat (s : State) (a : AccSel) (v : Word) : (s.setAcc a v).opMat = s.opMat := rfl
@[simp] theorem setAcc_freeCount (s : State) (a : AccSel) (v : Word) : (s.setAcc a v).freeCount = s.freeCount := rfl

/-! `State.freeAcc` gives an accumulator a free value. -/
@[simp] theorem freeAcc_cfg (s : State) (a : AccSel) : (s.freeAcc a).cfg = s.cfg := rfl
@[simp] theorem freeAcc_mode (s : State) (a : AccSel) : (s.freeAcc a).mode = s.mode := rfl
@[simp] theorem freeAcc_hwcap (s : State) (a : AccSel) : (s.freeAcc a).hwcap = s.hwcap := rfl
@[simp] theorem freeAcc_fcode (s : State) (a : AccSel) : (s.freeAcc a).fcode = s.fcode := rfl
@[simp] theorem freeAcc_vt (s : State) (a : AccSel) : (s.freeAcc a).vt = s.vt := rfl
@[simp] theorem freeAcc_lt (s : State) (a : AccSel) : (s.freeAcc a).lt = s.lt := rfl
@[simp] theorem freeAcc_st (s : State) (a : AccSel) : (s.freeAcc a).st = s.st := rfl
@[simp] theorem freeAcc_even (s : State) (a : AccSel) : (s.freeAcc a).even = s.even := rfl
@[simp] theorem freeAcc_odd (s : State) (a : AccSel) : (s.freeAcc a).odd = s.odd := rfl
@[simp] theorem freeAcc_ctx (s : State) (a : AccSel) : (s.freeAcc a).ctx = s.ctx.setAcc a (freeWord s.freeCount) := rfl
@[simp] theorem freeAcc_hwcapIn (s : State) (a : AccSel) : (s.freeAcc a).hwcapIn = s.hwcapIn := rfl
@[simp] theorem freeAcc_mem (s : State) (a : AccSel) : (s.freeAcc a).mem = s.mem := rfl
@[simp] theorem freeAcc_unmapped (s : State) (a : AccSel) : (s.freeAcc a).unmapped = s.unmapped := rfl
@[simp] theorem freeAcc_events (s : State) (a : AccSel) : (s.freeAcc a).events = s.events := rfl
@[simp] theorem freeAcc_responses (s : State) (a : AccSel) : (s.freeAcc a).responses = s.responses := rfl
@[simp] theorem freeAcc_reads (s : State) (a : AccSel) : (s.freeAcc a).reads = s.reads := rfl
@[simp] theorem freeAcc_uop (s : State) (a : AccSel) : (s.freeAcc a).uop = s.uop := rfl
@[simp] theorem freeAcc_port (s : State) (a : AccSel) : (s.freeAcc a).port = s.port := rfl
@[simp] theorem freeAcc_result (s : State) (a : AccSel) : (s.freeAcc a).result = s.result := rfl
@[simp] theorem freeAcc_opMat (s : State) (a : AccSel) : (s.freeAcc a).opMat = s.opMat := rfl
@[simp] theorem freeAcc_freeCount (s : State) (a : AccSel) : (s.freeAcc a).freeCount = s.freeCount + 1 := rfl

/-! `State.setPhase` moves the sequencer (rule R25). -/
@[simp] theorem setPhase_cfg (s : State) (p : Phase) : (s.setPhase p).cfg = s.cfg := rfl
@[simp] theorem setPhase_mode (s : State) (p : Phase) : (s.setPhase p).mode = s.mode := rfl
@[simp] theorem setPhase_hwcap (s : State) (p : Phase) : (s.setPhase p).hwcap = s.hwcap := rfl
@[simp] theorem setPhase_fcode (s : State) (p : Phase) : (s.setPhase p).fcode = s.fcode := rfl
@[simp] theorem setPhase_vt (s : State) (p : Phase) : (s.setPhase p).vt = s.vt := rfl
@[simp] theorem setPhase_lt (s : State) (p : Phase) : (s.setPhase p).lt = s.lt := rfl
@[simp] theorem setPhase_st (s : State) (p : Phase) : (s.setPhase p).st = s.st := rfl
@[simp] theorem setPhase_even (s : State) (p : Phase) : (s.setPhase p).even = s.even := rfl
@[simp] theorem setPhase_odd (s : State) (p : Phase) : (s.setPhase p).odd = s.odd := rfl
@[simp] theorem setPhase_ctx (s : State) (p : Phase) : (s.setPhase p).ctx = { s.ctx with phase := p } := rfl
@[simp] theorem setPhase_hwcapIn (s : State) (p : Phase) : (s.setPhase p).hwcapIn = s.hwcapIn := rfl
@[simp] theorem setPhase_mem (s : State) (p : Phase) : (s.setPhase p).mem = s.mem := rfl
@[simp] theorem setPhase_unmapped (s : State) (p : Phase) : (s.setPhase p).unmapped = s.unmapped := rfl
@[simp] theorem setPhase_events (s : State) (p : Phase) : (s.setPhase p).events = s.events := rfl
@[simp] theorem setPhase_responses (s : State) (p : Phase) : (s.setPhase p).responses = s.responses := rfl
@[simp] theorem setPhase_reads (s : State) (p : Phase) : (s.setPhase p).reads = s.reads := rfl
@[simp] theorem setPhase_uop (s : State) (p : Phase) : (s.setPhase p).uop = s.uop := rfl
@[simp] theorem setPhase_port (s : State) (p : Phase) : (s.setPhase p).port = s.port := rfl
@[simp] theorem setPhase_result (s : State) (p : Phase) : (s.setPhase p).result = s.result := rfl
@[simp] theorem setPhase_opMat (s : State) (p : Phase) : (s.setPhase p).opMat = s.opMat := rfl
@[simp] theorem setPhase_freeCount (s : State) (p : Phase) : (s.setPhase p).freeCount = s.freeCount := rfl

/-! `State.load` loads a context (rules R127, R151). -/
@[simp] theorem load_cfg (s : State) (c : Word) (a n : Nat) (p : Phase) : (s.load c a n p).cfg = s.cfg := rfl
@[simp] theorem load_mode (s : State) (c : Word) (a n : Nat) (p : Phase) : (s.load c a n p).mode = s.mode := rfl
@[simp] theorem load_hwcap (s : State) (c : Word) (a n : Nat) (p : Phase) : (s.load c a n p).hwcap = s.hwcap := rfl
@[simp] theorem load_fcode (s : State) (c : Word) (a n : Nat) (p : Phase) : (s.load c a n p).fcode = s.fcode := rfl
@[simp] theorem load_vt (s : State) (c : Word) (a n : Nat) (p : Phase) : (s.load c a n p).vt = s.vt := rfl
@[simp] theorem load_lt (s : State) (c : Word) (a n : Nat) (p : Phase) : (s.load c a n p).lt = s.lt := rfl
@[simp] theorem load_st (s : State) (c : Word) (a n : Nat) (p : Phase) : (s.load c a n p).st = s.st := rfl
@[simp] theorem load_even (s : State) (c : Word) (a n : Nat) (p : Phase) : (s.load c a n p).even = s.even := rfl
@[simp] theorem load_odd (s : State) (c : Word) (a n : Nat) (p : Phase) : (s.load c a n p).odd = s.odd := rfl
@[simp] theorem load_ctx (s : State) (c : Word) (a n : Nat) (p : Phase) : (s.load c a n p).ctx = { s.ctx with crc0 := c, ptr := a, rem := n, phase := p } := rfl
@[simp] theorem load_hwcapIn (s : State) (c : Word) (a n : Nat) (p : Phase) : (s.load c a n p).hwcapIn = s.hwcapIn := rfl
@[simp] theorem load_mem (s : State) (c : Word) (a n : Nat) (p : Phase) : (s.load c a n p).mem = s.mem := rfl
@[simp] theorem load_unmapped (s : State) (c : Word) (a n : Nat) (p : Phase) : (s.load c a n p).unmapped = s.unmapped := rfl
@[simp] theorem load_events (s : State) (c : Word) (a n : Nat) (p : Phase) : (s.load c a n p).events = s.events := rfl
@[simp] theorem load_responses (s : State) (c : Word) (a n : Nat) (p : Phase) : (s.load c a n p).responses = s.responses := rfl
@[simp] theorem load_reads (s : State) (c : Word) (a n : Nat) (p : Phase) : (s.load c a n p).reads = s.reads := rfl
@[simp] theorem load_uop (s : State) (c : Word) (a n : Nat) (p : Phase) : (s.load c a n p).uop = s.uop := rfl
@[simp] theorem load_port (s : State) (c : Word) (a n : Nat) (p : Phase) : (s.load c a n p).port = s.port := rfl
@[simp] theorem load_result (s : State) (c : Word) (a n : Nat) (p : Phase) : (s.load c a n p).result = s.result := rfl
@[simp] theorem load_opMat (s : State) (c : Word) (a n : Nat) (p : Phase) : (s.load c a n p).opMat = s.opMat := rfl
@[simp] theorem load_freeCount (s : State) (c : Word) (a n : Nat) (p : Phase) : (s.load c a n p).freeCount = s.freeCount := rfl

/-! `State.returnCrc0` returns `CRC0`. -/
@[simp] theorem returnCrc0_cfg (s : State) : (s.returnCrc0).cfg = s.cfg := rfl
@[simp] theorem returnCrc0_mode (s : State) : (s.returnCrc0).mode = s.mode := rfl
@[simp] theorem returnCrc0_hwcap (s : State) : (s.returnCrc0).hwcap = s.hwcap := rfl
@[simp] theorem returnCrc0_fcode (s : State) : (s.returnCrc0).fcode = s.fcode := rfl
@[simp] theorem returnCrc0_vt (s : State) : (s.returnCrc0).vt = s.vt := rfl
@[simp] theorem returnCrc0_lt (s : State) : (s.returnCrc0).lt = s.lt := rfl
@[simp] theorem returnCrc0_st (s : State) : (s.returnCrc0).st = s.st := rfl
@[simp] theorem returnCrc0_even (s : State) : (s.returnCrc0).even = s.even := rfl
@[simp] theorem returnCrc0_odd (s : State) : (s.returnCrc0).odd = s.odd := rfl
@[simp] theorem returnCrc0_ctx (s : State) : (s.returnCrc0).ctx = s.ctx := rfl
@[simp] theorem returnCrc0_hwcapIn (s : State) : (s.returnCrc0).hwcapIn = s.hwcapIn := rfl
@[simp] theorem returnCrc0_mem (s : State) : (s.returnCrc0).mem = s.mem := rfl
@[simp] theorem returnCrc0_unmapped (s : State) : (s.returnCrc0).unmapped = s.unmapped := rfl
@[simp] theorem returnCrc0_events (s : State) : (s.returnCrc0).events = s.events := rfl
@[simp] theorem returnCrc0_responses (s : State) : (s.returnCrc0).responses = s.responses := rfl
@[simp] theorem returnCrc0_reads (s : State) : (s.returnCrc0).reads = s.reads := rfl
@[simp] theorem returnCrc0_uop (s : State) : (s.returnCrc0).uop = s.uop := rfl
@[simp] theorem returnCrc0_port (s : State) : (s.returnCrc0).port = s.port := rfl
@[simp] theorem returnCrc0_result (s : State) : (s.returnCrc0).result = s.ctx.crc0 := rfl
@[simp] theorem returnCrc0_opMat (s : State) : (s.returnCrc0).opMat = s.opMat := rfl
@[simp] theorem returnCrc0_freeCount (s : State) : (s.returnCrc0).freeCount = s.freeCount := rfl

/-! `State.setMat` writes a matrix buffer (rule R30). -/
@[simp] theorem setMat_cfg (s : State) (b : MatSel) (m : Mat) : (s.setMat b m).cfg = s.cfg := by cases b <;> rfl
@[simp] theorem setMat_mode (s : State) (b : MatSel) (m : Mat) : (s.setMat b m).mode = s.mode := by cases b <;> rfl
@[simp] theorem setMat_hwcap (s : State) (b : MatSel) (m : Mat) : (s.setMat b m).hwcap = s.hwcap := by cases b <;> rfl
@[simp] theorem setMat_fcode (s : State) (b : MatSel) (m : Mat) : (s.setMat b m).fcode = s.fcode := by cases b <;> rfl
@[simp] theorem setMat_vt (s : State) (b : MatSel) (m : Mat) : (s.setMat b m).vt = s.vt := by cases b <;> rfl
@[simp] theorem setMat_lt (s : State) (b : MatSel) (m : Mat) : (s.setMat b m).lt = s.lt := by cases b <;> rfl
@[simp] theorem setMat_st (s : State) (b : MatSel) (m : Mat) : (s.setMat b m).st = s.st := by cases b <;> rfl
@[simp] theorem setMat_ctx (s : State) (b : MatSel) (m : Mat) : (s.setMat b m).ctx = s.ctx := by cases b <;> rfl
@[simp] theorem setMat_hwcapIn (s : State) (b : MatSel) (m : Mat) : (s.setMat b m).hwcapIn = s.hwcapIn := by cases b <;> rfl
@[simp] theorem setMat_mem (s : State) (b : MatSel) (m : Mat) : (s.setMat b m).mem = s.mem := by cases b <;> rfl
@[simp] theorem setMat_unmapped (s : State) (b : MatSel) (m : Mat) : (s.setMat b m).unmapped = s.unmapped := by cases b <;> rfl
@[simp] theorem setMat_events (s : State) (b : MatSel) (m : Mat) : (s.setMat b m).events = s.events := by cases b <;> rfl
@[simp] theorem setMat_responses (s : State) (b : MatSel) (m : Mat) : (s.setMat b m).responses = s.responses := by cases b <;> rfl
@[simp] theorem setMat_reads (s : State) (b : MatSel) (m : Mat) : (s.setMat b m).reads = s.reads := by cases b <;> rfl
@[simp] theorem setMat_uop (s : State) (b : MatSel) (m : Mat) : (s.setMat b m).uop = s.uop := by cases b <;> rfl
@[simp] theorem setMat_port (s : State) (b : MatSel) (m : Mat) : (s.setMat b m).port = s.port := by cases b <;> rfl
@[simp] theorem setMat_result (s : State) (b : MatSel) (m : Mat) : (s.setMat b m).result = s.result := by cases b <;> rfl
@[simp] theorem setMat_opMat (s : State) (b : MatSel) (m : Mat) : (s.setMat b m).opMat = s.opMat := by cases b <;> rfl
@[simp] theorem setMat_freeCount (s : State) (b : MatSel) (m : Mat) : (s.setMat b m).freeCount = s.freeCount := by cases b <;> rfl

/-! `State.setShiftTable` writes a shift table (rule R29). -/
@[simp] theorem setShiftTable_cfg (s : State) (t : TableSel) (m : Table 4) : (s.setShiftTable t m).cfg = s.cfg := by cases t <;> rfl
@[simp] theorem setShiftTable_mode (s : State) (t : TableSel) (m : Table 4) : (s.setShiftTable t m).mode = s.mode := by cases t <;> rfl
@[simp] theorem setShiftTable_hwcap (s : State) (t : TableSel) (m : Table 4) : (s.setShiftTable t m).hwcap = s.hwcap := by cases t <;> rfl
@[simp] theorem setShiftTable_fcode (s : State) (t : TableSel) (m : Table 4) : (s.setShiftTable t m).fcode = s.fcode := by cases t <;> rfl
@[simp] theorem setShiftTable_vt (s : State) (t : TableSel) (m : Table 4) : (s.setShiftTable t m).vt = s.vt := by cases t <;> rfl
@[simp] theorem setShiftTable_even (s : State) (t : TableSel) (m : Table 4) : (s.setShiftTable t m).even = s.even := by cases t <;> rfl
@[simp] theorem setShiftTable_odd (s : State) (t : TableSel) (m : Table 4) : (s.setShiftTable t m).odd = s.odd := by cases t <;> rfl
@[simp] theorem setShiftTable_ctx (s : State) (t : TableSel) (m : Table 4) : (s.setShiftTable t m).ctx = s.ctx := by cases t <;> rfl
@[simp] theorem setShiftTable_hwcapIn (s : State) (t : TableSel) (m : Table 4) : (s.setShiftTable t m).hwcapIn = s.hwcapIn := by cases t <;> rfl
@[simp] theorem setShiftTable_mem (s : State) (t : TableSel) (m : Table 4) : (s.setShiftTable t m).mem = s.mem := by cases t <;> rfl
@[simp] theorem setShiftTable_unmapped (s : State) (t : TableSel) (m : Table 4) : (s.setShiftTable t m).unmapped = s.unmapped := by cases t <;> rfl
@[simp] theorem setShiftTable_events (s : State) (t : TableSel) (m : Table 4) : (s.setShiftTable t m).events = s.events := by cases t <;> rfl
@[simp] theorem setShiftTable_responses (s : State) (t : TableSel) (m : Table 4) : (s.setShiftTable t m).responses = s.responses := by cases t <;> rfl
@[simp] theorem setShiftTable_reads (s : State) (t : TableSel) (m : Table 4) : (s.setShiftTable t m).reads = s.reads := by cases t <;> rfl
@[simp] theorem setShiftTable_uop (s : State) (t : TableSel) (m : Table 4) : (s.setShiftTable t m).uop = s.uop := by cases t <;> rfl
@[simp] theorem setShiftTable_port (s : State) (t : TableSel) (m : Table 4) : (s.setShiftTable t m).port = s.port := by cases t <;> rfl
@[simp] theorem setShiftTable_result (s : State) (t : TableSel) (m : Table 4) : (s.setShiftTable t m).result = s.result := by cases t <;> rfl
@[simp] theorem setShiftTable_opMat (s : State) (t : TableSel) (m : Table 4) : (s.setShiftTable t m).opMat = s.opMat := by cases t <;> rfl
@[simp] theorem setShiftTable_freeCount (s : State) (t : TableSel) (m : Table 4) : (s.setShiftTable t m).freeCount = s.freeCount := by cases t <;> rfl

/-! The two matrix buffers and the two shift tables, read and written. -/
@[simp] theorem setMat_mat (s : State) (b : MatSel) (m : Mat) : (s.setMat b m).mat b = m := by cases b <;> rfl
@[simp] theorem setMat_mat_other (s : State) (b : MatSel) (m : Mat) : (s.setMat b.other m).mat b = s.mat b := by
  cases b <;> rfl
@[simp] theorem setMat_other_mat (s : State) (b : MatSel) (m : Mat) : (s.setMat b m).mat b.other = s.mat b.other := by
  cases b <;> rfl
@[simp] theorem other_other (b : MatSel) : b.other.other = b := by cases b <;> rfl
@[simp] theorem setShiftTable_same (s : State) (t : TableSel) (m : Table 4) :
    (s.setShiftTable t m).shiftTable t = m := by cases t <;> rfl

/-! The registers of a context. -/
@[simp] theorem setAcc_acc (c : Context) (a : AccSel) (v : Word) : (c.setAcc a v).acc a = v := by cases a <;> rfl
@[simp] theorem setAcc_ptr (c : Context) (a : AccSel) (v : Word) : (c.setAcc a v).ptr = c.ptr := by cases a <;> rfl
@[simp] theorem setAcc_rem (c : Context) (a : AccSel) (v : Word) : (c.setAcc a v).rem = c.rem := by cases a <;> rfl
@[simp] theorem setAcc_phase (c : Context) (a : AccSel) (v : Word) : (c.setAcc a v).phase = c.phase := by
  cases a <;> rfl

end Sys2Proof.Machine
end

