-- ==== Sys2Proof/Laws/Tables.lean ====
section
/-!
SUPPORT. What the tables and matrices hold after each operation that writes one: one lemma per constructor of a table,
so that no later proof unfolds `tabulate`.
-/
namespace Sys2Proof.Machine

theorem listFrom_getElem {α : Type} (f : Nat → α) (n k i : Nat) (h : i < (listFrom f n k).length) :
    (listFrom f n k)[i] = f (k + i) := by
  induction n generalizing k i with
  | zero => simp [listFrom] at h
  | succ n ih =>
    cases i with
    | zero => simp [listFrom]
    | succ i => simp only [listFrom, List.getElem_cons_succ]; rw [ih]; congr 1; omega

@[simp] theorem tabulate_getElem {α : Type} (n : Nat) (f : Nat → α) (i : Nat) (h : i < n) :
    (tabulate n f)[i] = f i := by
  show (listFrom f n 0)[i]'(by simpa [listFrom_length] using h) = f i
  rw [listFrom_getElem, Nat.zero_add]

@[simp] theorem entry_tableOf (r : Nat) (f : Nat → Byte → Word) (k : Nat) (n : Byte) (h : k < r) :
    entry (tableOf r f) k n = f k n := by
  simp [entry, tableOf, h]

theorem entry_outside {r : Nat} (t : Table r) (k : Nat) (n : Byte) (h : r ≤ k) : entry t k n = 0 := by
  simp [entry, Nat.not_lt.mpr h]

theorem entry_setRow {r : Nat} (t : Table r) (k : Nat) (f : Byte → Word) (i : Nat) (n : Byte) (h : i < r) :
    entry (setRow t k f) i n = if i = k then f n else entry t i n := by
  by_cases hi : i = k
  · subst hi; simp [setRow, entry, h]
  · simp [setRow, entry, h, hi, Nat.mod_eq_of_lt n.isLt]

@[simp] theorem matRow_tabulate (f : Nat → Word) (i : Nat) (h : i < 32) : matRow (tabulate 32 f) i = f i := by
  simp [matRow, h]

/-- Row `n` of the matrix `MATSQ` writes (rule R82). -/
theorem matRow_matsqOf (m : Mat) (n : Nat) (h : n < 32) : matRow (matsqOf m) n = matvec m (matRow m n) := by
  simp [matsqOf, h]

/-- The rows of `OP1` (rule R91). -/
theorem matRow_op1Mat (n : Nat) (h : n < 32) :
    matRow op1Mat n = if n = 0 then poly else (1 : Word) <<< (n - 1) := by
  simp [op1Mat, h]

/-- The entries `SHTAB_BUILD` writes (rule R101). -/
theorem entry_shtabOf (op : Mat) (k : Nat) (n : Byte) (h : k < 4) :
    entry (shtabOf op) k n = matvec op (zext n <<< (8 * k)) := by
  simp [shtabOf, h]

/-- The entries after `VT_ROW0` (rule R111). -/
theorem entry_vtRow0 (vt : Table 16) (k : Nat) (n : Byte) (h : k < 16) :
    entry (vtRow0 vt) k n = if k = 0 then bitSteps 8 (zext n) else entry vt k n := by
  simp [vtRow0, entry_setRow, h]

/-- The entries after `VT_ROWK(k)` (rule R112). -/
theorem entry_vtRowk (vt : Table 16) (k i : Nat) (n : Byte) (h : i < 16) :
    entry (vtRowk vt k) i n =
      if i = k then entry vt 0 (byteOf (entry vt (k - 1) n) 0) ^^^ (entry vt (k - 1) n >>> 8)
      else entry vt i n := by
  simp [vtRowk, entry_setRow, h]

/-! ## The operations on tables at their closed forms (rule R31) -/

/-- `SHIFT_APPLY` on a table at its closed form (rule R104). -/
theorem shiftApply_of_entries (tab : Table 4) (len : Nat) (h : ∀ k n, k < 4 → entry tab k n = zn (zext n <<< (8 * k)) len) (c : Word) : shiftApply tab c = zn c len := by
  unfold shiftApply
  rw [h 0 _ (by omega), h 1 _ (by omega), h 2 _ (by omega), h 3 _ (by omega), ← zn_xor, ← zn_xor, ← zn_xor]
  congr 1
  conv => rhs; rw [word_bytes c]
  simp

/-- The table step of `BYTE_FOLD` is `ByteFold` (rule R121). -/
theorem byteFoldValue_of_entries (vt : Table 16) (h : ∀ n, entry vt 0 n = zn (zext n) 1) (c : Word) (d : Byte) : byteFoldValue vt c d = byteFoldSpec c d := by
  unfold byteFoldValue
  rw [h, byteFoldSpec_eq]
  generalize hx : c ^^^ zext d = x
  have e : c >>> 8 = x >>> 8 := by
    rw [← hx]
    apply BitVec.eq_of_getLsbD_eq
    intro i hi
    simp [zext]
  rw [e]
  conv => rhs; rw [low_byte_split x, zeroByte_xor]
  congr 1
  rw [zeroByte_eq, bitSteps_shl]
  apply BitVec.eq_of_getLsbD_eq
  intro i hi
  rw [← BitVec.shiftRight_add]; simp

/-- The lookups of a block are those of its bytes from state zero, and those of the state (rule R122). -/
theorem blockLookups_split (vt : Table 16) (h : ∀ k n, k < 16 → entry vt k n = zn (zext n) (k + 1)) (crc : Word) (d : List Byte) (n : Nat) (hn : n ≤ 16) (m : Nat) (hm : m ≤ n) (hd : d.length = n):
    blockLookups vt n crc d m = zn (zn 0 0 ^^^ rawFold 0 (d.take m)) (n - m) ^^^ blockLookups vt n crc (List.replicate n 0) m := by
  induction m with
  | zero => simp [blockLookups, rawFold, zn]
  | succ m ih =>
    simp only [blockLookups]
    rw [ih (by omega)]
    have e1 : d.take (m+1) = d.take m ++ [d.getD m 0] := by
      rw [List.take_add_one]; simp [List.getD, hd, show m < n by omega]
    rw [e1, rawFold_append]
    have e2 : entry vt (n-1-m) (blockIndex crc d m) = entry vt (n-1-m) (d.getD m 0) ^^^ entry vt (n-1-m) (blockIndex crc (List.replicate n 0) m) := by
      rw [h _ _ (by omega), h _ _ (by omega), h _ _ (by omega), ← zn_xor]
      congr 1
      have : blockIndex crc d m = d.getD m 0 ^^^ blockIndex crc (List.replicate n 0) m := by
        unfold blockIndex
        have : (List.replicate n (0:Byte)).getD m 0 = 0 := by simp [List.getD, show m < n by omega]
        rw [this]
        split <;> simp
      rw [this]
      simp [zext, BitVec.setWidth_xor]
    rw [e2]
    have e3 : entry vt (n-1-m) (d.getD m 0) = zn (zext (d.getD m 0)) (n - m) := by
      rw [h _ _ (by omega)]; congr 1; omega
    rw [e3]
    have e4 : zn (zn 0 0 ^^^ rawFold (rawFold 0 (d.take m)) [d.getD m 0]) (n - (m+1)) = zn (rawFold 0 (d.take m)) (n-m) ^^^ zn (zext (d.getD m 0)) (n-m) := by
      simp only [rawFold, zn]
      rw [byteFoldSpec_eq, show n - m = (n - (m+1)) + 1 by omega, zn, zn, ← zn_xor, ← zeroByte_xor]
      simp
    rw [e4]
    simp only [zn]
    have : (0 : Word) ^^^ rawFold 0 (d.take m) = rawFold 0 (d.take m) := by simp
    rw [this]
    ac_rfl

/-- The lookups of the state carry it past the block (rule R122). -/
theorem blockLookups_state (vt : Table 16) (h : ∀ k n, k < 16 → entry vt k n = zn (zext n) (k + 1)) (crc : Word) (n : Nat) (hn : n ≤ 16) (h4 : 4 ≤ n) (m : Nat) (hm : m ≤ n) (hm4 : 4 ≤ m):
    blockLookups vt n crc (List.replicate n 0) m = zn crc n := by
  induction m with
  | zero => omega
  | succ m ih =>
    by_cases h5 : 4 ≤ m
    · simp only [blockLookups]
      rw [ih (by omega) h5, h _ _ (by omega)]
      have : blockIndex crc (List.replicate n 0) m = 0 := by
        simp [blockIndex, show ¬ m < 4 by omega, List.getD, show m < n by omega]
      rw [this]
      simp
    · obtain rfl : m = 3 := by omega
      simp only [blockLookups]
      have g : ∀ j, j < 4 → blockIndex crc (List.replicate n 0) j = byteOf crc j := by
        intro j hj; simp [blockIndex, hj, List.getD, show j < n by omega]
      rw [g 0 (by omega), g 1 (by omega), g 2 (by omega), g 3 (by omega)]
      have k : ∀ j, j < 4 → entry vt (n-1-j) (byteOf crc j) = zn (zext (byteOf crc j) <<< (8*j)) n := by
        intro j hj
        rw [h _ _ (by omega), zn_placed _ _ j hj (by omega)]; congr 1; omega
      rw [k 0 (by omega), k 1 (by omega), k 2 (by omega), k 3 (by omega)]
      rw [show (0:Word) = zn 0 n by simp, ← zn_xor, ← zn_xor, ← zn_xor, ← zn_xor]
      congr 1
      conv => rhs; rw [word_bytes crc]
      simp

/-- The lookups of `BLOCK_FOLD` are the fold of the block (rule R122). -/
theorem blockFoldValue_of_entries (vt : Table 16) (h : ∀ k n, k < 16 → entry vt k n = zn (zext n) (k + 1)) (crc : Word) (d : List Byte) (n : Nat) (h4 : 4 ≤ n) (hn : n ≤ 16) (hd : d.length = n) :
    blockFoldValue vt n crc d = rawFold crc d := by
  unfold blockFoldValue
  rw [blockLookups_split vt h crc d n hn n le_rfl hd, blockLookups_state vt h crc n hn h4 n le_rfl h4]
  rw [show List.take n d = d by rw [← hd]; simp]
  have := rawFold_xor crc 0 d
  rw [hd] at this
  simp at this
  simp [zn, this]
  ac_rfl

/-- The rows that `VT_ROWK` builds from rows at their closed form (rules R112, R113). -/
theorem vtRows_entry (vt : Table 16) (n k : Nat) (hk : 1 ≤ k) (hn : n + k ≤ 16) (h : ∀ j n, j < k → entry vt j n = zn (zext n) (j+1)) :
   ∀ j m, j < n + k → entry (vtRows vt n k) j m = zn (zext m) (j+1) := by
  induction n generalizing vt k with
  | zero => intro j m hj; exact h j m (by omega)
  | succ n ih =>
    intro j m hj
    apply ih (vtRowk vt k) (k+1) (by omega) (by omega) _ j m (by omega)
    intro j m hj
    rw [entry_vtRowk _ _ _ _ (by omega)]
    split
    · subst j
      rw [h (k-1) m (by omega)]
      have := byteFoldValue_of_entries vt (fun n => h 0 n (by omega)) (zn (zext m) (k - 1 + 1)) 0
      simp [byteFoldValue, byteFoldSpec_eq] at this
      rw [this, show k - 1 + 1 = k by omega, zn_add k 1]; rfl
    · exact h j m (by omega)

/-- Every entry after `VT_BUILD` (rules R113, R114). -/
theorem vtBuild_entry (vt : Table 16) : ∀ j m, j < 16 → entry (vtBuild vt) j m = zn (zext m) (j+1) := by
  intro j m hj
  apply vtRows_entry _ _ _ (by omega) (by omega)
  · intro j m hj
    obtain rfl : j = 0 := by omega
    rw [entry_vtRow0 _ _ _ (by omega)]
    simp [zn, zeroByte_eq]
  · omega

end Sys2Proof.Machine
end

