-- ==== Sys2Proof/Laws/Ops.lean ====
section
/-!
SUPPORT. For each shared operation, once, everything it can do.
-/
namespace Sys2Proof.Machine

@[simp] theorem andThen_ok (s : State) (k : State → Result) : andThen (.next s) k = k s := rfl

/-- A sequence answers a next state exactly when its first part does and the rest does from there. -/
theorem andThen_eq_next {r : Result} {k : State → Result} {t : State} :
    andThen r k = .next t ↔ ∃ u, r = .next u ∧ k u = .next t := by
  cases r <;> simp [andThen]

/-- A use of the read port that can be served (rules R40, R49). -/
theorem withAccess_of_canRead {s : State} {a n : Nat} (h : s.CanRead a n) (l : List Access) (k : State → Result) :
    withAccess s a n l k = k { s with reads := s.reads ++ l } := by
  simp [withAccess, h.1, h.2]

/-- A use of the read port that is answered could be served. -/
theorem withAccess_eq_next {s t : State} {a n : Nat} {l : List Access} {k : State → Result} :
    withAccess s a n l k = .next t ↔ s.CanRead a n ∧ k { s with reads := s.reads ++ l } = .next t := by
  unfold withAccess State.CanRead
  by_cases h1 : a + n ≤ s.cfg.space <;> by_cases h2 : s.mapped a n = true <;> simp [h1, h2]

theorem withRead_of_canRead {s : State} {a n : Nat} (h : s.CanRead a n) (k : List Byte → State → Result) :
    withRead s a n k = k (s.mem.bytes a n) { s with reads := s.reads ++ [{ addr := a, width := n }] } := by
  simp [withRead, withAccess_of_canRead h]

theorem withRead_eq_next {s t : State} {a n : Nat} {k : List Byte → State → Result} :
    withRead s a n k = .next t ↔
      s.CanRead a n ∧
        k (s.mem.bytes a n) { s with reads := s.reads ++ [{ addr := a, width := n }] } = .next t := by
  simp [withRead, withAccess_eq_next]

/-- A part of a buffer that is backed by memory is backed by memory. -/
theorem mapped_mono {s : State} {a n b m : Nat} (h : s.mapped a n = true) (h1 : a ≤ b) (h2 : b + m ≤ a + n) :
    s.mapped b m = true := by
  unfold State.mapped at *
  rw [List.all_eq_true] at *
  intro r hr
  have := h r hr
  simp only [Region.meets, Bool.not_eq_true', decide_eq_false_iff_not] at *
  omega

/-- A part of a buffer that can be read can be read. -/
theorem CanRead.mono {s : State} {a n b m : Nat} (h : s.CanRead a n) (h1 : a ≤ b) (h2 : b + m ≤ a + n) :
    s.CanRead b m :=
  ⟨by have := h.1; omega, mapped_mono h.2 h1 h2⟩

/-- A buffer of no bytes is backed by memory (rule R168: "no byte is read, `addr` may be any value"). -/
theorem mapped_zero (s : State) (a : Nat) : s.mapped a 0 = true := by
  unfold State.mapped
  rw [List.all_eq_true]
  intro r _
  simp only [Region.meets, Bool.not_eq_true', decide_eq_false_iff_not]
  omega

/-- A fold within `REM` (rule R26). -/
theorem advance_of_le {s : State} {n : Nat} (h : n ≤ s.ctx.rem) :
    s.advance n = { s with ctx := { s.ctx with ptr := s.ctx.ptr + n, rem := s.ctx.rem - n } } := by
  simp [State.advance, h]

@[simp] theorem setAligned_of_aligned {s : State} {acc : AccSel} {a w : Nat} {v : Word} (h : a % w = 0) :
    s.setAligned acc a w v = s.setAcc acc v := by
  simp [State.setAligned, h]

/-- The test on `MODE` of `APPEND` and `HWAVAIL` (rule R164): one outcome for each mode. -/
theorem whenReady_cases (s : State) (k : Result) :
    (s.mode = .faulted ∧ whenReady s k = .next (s.respond .engineFaulted 0)) ∨
    (s.mode = .uninitialized ∧ whenReady s k = .next (s.raiseFault .notInitialized)) ∨
    (s.mode = .ready ∧ whenReady s k = k) := by
  unfold whenReady
  cases s.mode <;> simp

/-- A builder operation answers only where the builders exist (rule R30). -/
theorem withBuilder_eq_next {s t : State} {k : Result} :
    withBuilder s k = .next t ↔ s.cfg.tableSrc = .built ∧ k = .next t := by
  unfold withBuilder
  cases s.cfg.tableSrc <;> simp

/-- A table is written only before initialisation has completed (rules R31, R54, R56). -/
theorem withTableWrite_eq_next {s t : State} {k : Result} :
    withTableWrite s k = .next t ↔ s.cfg.tableSrc = .built ∧ s.mode = .uninitialized ∧ k = .next t := by
  unfold withTableWrite
  rw [withBuilder_eq_next]
  cases s.mode <;> simp

/-- What the test on the unit of datapath HW asks (rules R22, R140). -/
theorem hwUnitAbsent_eq_false {s : State} : s.hwUnitAbsent = false ↔ s.HwUsable := by
  unfold State.hwUnitAbsent State.HwUsable
  cases s.mode <;> simp

theorem withHwUnit_of_usable {s : State} (h : s.HwUsable) (k : Result) : withHwUnit s k = k := by
  simp [withHwUnit, hwUnitAbsent_eq_false.mpr h]

/-- An operation of datapath HW answers only where the unit may be used (rule R140). -/
theorem withHwUnit_eq_next {s t : State} {k : Result} : withHwUnit s k = .next t ↔ s.HwUsable ∧ k = .next t := by
  rw [← hwUnitAbsent_eq_false, withHwUnit]
  cases s.hwUnitAbsent <;> simp

/-- Without the unit the operation is refused (rule R140). -/
theorem withHwUnit_of_absent {s : State} (hm : s.mode = .ready) (hc : s.hwcap = false) (k : Result) :
    withHwUnit s k = .refused .hwUnitAbsent := by
  simp [withHwUnit, State.hwUnitAbsent, hm, hc]

/-- Reset keeps the build, the outside and the record of the run, and nothing else (rule R200). -/
theorem takeReset_eq (s : State) :
    s.takeReset = { State.resetOf s.cfg with
      hwcapIn := s.hwcapIn, mem := s.mem, unmapped := s.unmapped, events := s.events,
      responses := s.responses, reads := s.reads, freeCount := s.freeCount } := rfl

/-- `BYTE_FOLD` within the buffer (rule R121). -/
theorem byteFold_of_canRead {s : State} (h : s.CanRead s.ctx.ptr 1) (hr : 1 ≤ s.ctx.rem) :
    byteFold s = .next { s with
      ctx := { s.ctx with
        crc0 := byteFoldValue s.vt s.ctx.crc0 (s.mem.read s.ctx.ptr), ptr := s.ctx.ptr + 1, rem := s.ctx.rem - 1 },
      reads := s.reads ++ [{ addr := s.ctx.ptr, width := 1 }] } := by
  unfold byteFold
  rw [withRead_of_canRead h, advance_of_le (by simpa [State.setAcc, Context.setAcc] using hr)]
  rfl

/-- `BLOCK_FOLD` within the buffer, aligned (rule R122). -/
theorem blockFold_of_canRead {s : State} {n : BlockWidth} (h : s.CanRead s.ctx.ptr n.bytes)
    (hr : n.bytes ≤ s.ctx.rem) (ha : s.ctx.ptr % n.bytes = 0) :
    blockFold n s = .next { s with
      ctx := { s.ctx with
        crc0 := blockFoldValue s.vt n.bytes s.ctx.crc0 (s.mem.bytes s.ctx.ptr n.bytes),
        ptr := s.ctx.ptr + n.bytes, rem := s.ctx.rem - n.bytes },
      reads := s.reads ++ [{ addr := s.ctx.ptr, width := n.bytes }] } := by
  unfold blockFold
  rw [withRead_of_canRead h, setAligned_of_aligned ha,
    advance_of_le (by simpa [State.setAcc, Context.setAcc] using hr)]
  rfl

/-- `WORD_STEP` on bytes that can be read, aligned (rule R141). -/
theorem wordStep_of_canRead {s : State} {w : WordWidth} {acc : AccSel} {a : Nat} (h : s.CanRead a w.bytes)
    (ha : a % w.bytes = 0) :
    wordStep w acc a s = .next { s with
      ctx := s.ctx.setAcc acc (rawFold (s.ctx.acc acc) (s.mem.bytes a w.bytes)),
      reads := s.reads ++ [{ addr := a, width := w.bytes }] } := by
  unfold wordStep
  rw [withRead_of_canRead h, setAligned_of_aligned ha]
  rfl

/-- `STREAM3` on bytes that can be read, aligned (rule R145). -/
theorem stream3_of_canRead {s : State} {t : TableSel} (h : s.CanRead s.ctx.ptr (3 * s.cfg.streamLen t))
    (ha : s.ctx.ptr % s.cfg.word.bytes = 0) :
    stream3 t s = .next { s with
      ctx := Context.streamLoop { s.ctx with crc1 := 0, crc2 := 0 } s.mem s.cfg.word.bytes (s.cfg.streamLen t)
        (s.cfg.streamLen t / s.cfg.word.bytes) 0,
      reads := s.reads ++ streamAccesses s.ctx.ptr s.cfg.word.bytes (s.cfg.streamLen t)
        (s.cfg.streamLen t / s.cfg.word.bytes) 0 } := by
  unfold stream3
  rw [withAccess_of_canRead h]
  simp [ha]

end Sys2Proof.Machine
end

