-- ==== Sys2Proof/Laws/Matrix.lean ====
section
/-!
SUPPORT. The matrix operations (40_gf2_matrix.md, 41_shift_operator.md): what each buffer stands for after each of them.
-/
namespace Sys2Proof.Machine

/-- The loop of `MATVEC` is linear in the vector (rule R81). -/
theorem matvecUpTo_xor (m : Mat) (a b : Word) (n : Nat) : matvecUpTo m (a ^^^ b) n = matvecUpTo m a n ^^^ matvecUpTo m b n := by
  induction n with
  | zero => simp [matvecUpTo]
  | succ n ih =>
    simp only [matvecUpTo, ih, BitVec.getLsbD_xor]
    generalize matvecUpTo m a n = x
    generalize matvecUpTo m b n = y
    cases a.getLsbD n <;> cases b.getLsbD n <;> simp
    · ac_rfl
    · ac_rfl
    · exact (xor_xor_cancel x y _).symm

/-- The loop of `MATVEC` on zero. -/
theorem matvecUpTo_zero (m : Mat) (n : Nat) : matvecUpTo m 0 n = 0 := by
  induction n with
  | zero => rfl
  | succ n ih => simp only [matvecUpTo, ih]; simp

/-- The loop of `MATVEC` on a basis vector (rule R81). -/
theorem matvecUpTo_unit (m : Mat) (i n : Nat) : i < 32 → n ≤ 32 → matvecUpTo m ((1:Word) <<< i) n = if i < n then matRow m i else 0 := by
  intro hi
  induction n with
  | zero => intro _; rfl
  | succ n ih =>
    intro hn
    simp only [matvecUpTo, ih (by omega)]
    by_cases h : i = n
    · subst h; simp [hi]
    · have : ((1:Word) <<< i).getLsbD n = false := by
        rw [show (1:Word) <<< i = BitVec.twoPow 32 i by simp [BitVec.twoPow]]
        rw [BitVec.getLsbD_twoPow]; simp [h]
      rw [this]
      by_cases h2 : i < n
      · simp [h2, show i < n + 1 by omega]
      · simp [h2, show ¬ i < n + 1 by omega]

/-- `MATVEC` on an XOR. -/
theorem matvec_xor (m : Mat) (a b : Word) : matvec m (a ^^^ b) = matvec m a ^^^ matvec m b := matvecUpTo_xor m a b 32

/-- `MATVEC` on a basis vector. -/
theorem matvec_unit (m : Mat) (i : Nat) (h : i < 32) : matvec m ((1 : Word) <<< i) = matRow m i := by
  unfold matvec
  rw [matvecUpTo_unit m i 32 h le_rfl, if_pos h]

/-- The map a matrix stands for (rule R80). -/
def StandsFor (m : Mat) (f : Word → Word) : Prop := ∀ v, matvec m v = f v

/-- `MATSQ` applies the map twice (rule R82). -/
theorem standsFor_matsq {m f} (h : StandsFor m f) : StandsFor (matsqOf m) (fun v => f (f v)) := by
  intro v
  show _ = f (f v)
  rw [← h, ← h]
  apply linear_ext (matvec (matsqOf m)) (fun v => matvec m (matvec m v)) (matvec_xor _) (fun a b => by simp only [matvec_xor])
  intro i hi
  rw [matvec_unit _ _ hi, matRow_matsqOf _ _ hi, matvec_unit _ _ hi]

/-- `OP1` stands for `BitStep` (rule R91). -/
theorem standsFor_op1 : StandsFor op1Mat bitStep := by
  intro v
  apply linear_ext (matvec op1Mat) bitStep (matvec_xor _) bitStep_xor
  intro i hi
  rw [matvec_unit _ _ hi, matRow_op1Mat _ hi]
  interval_cases i <;> rfl

/-- `MATSQ` doubles the number of zero bits (rule R83). -/
theorem standsFor_bits {m} {n} (h : StandsFor m (bitSteps n)) : StandsFor (matsqOf m) (bitSteps (n+n)) := by
  intro v; rw [standsFor_matsq h v]; exact (bitSteps_add _ _ _).symm

/-- The loop of `ZEROS_OP` writes the two buffers and the name of one. -/
theorem zerosLoop_frame (s : State) (fuel len) : ∃ e o p, s.zerosLoop fuel len = { s with even := e, odd := o, opMat := p } := by
  induction fuel generalizing s len with
  | zero => exact ⟨_, _, _, rfl⟩
  | succ n ih =>
    simp only [State.zerosLoop]
    split
    · exact ⟨_, _, _, rfl⟩
    · split
      · exact ⟨_, _, _, rfl⟩
      · obtain ⟨e, o, p, h⟩ := ih ((s.matsq .odd).matsq .even) (len >>> 1 >>> 1)
        rw [h]; exact ⟨_, _, _, rfl⟩

/-- `ZEROS_OP` writes the two buffers and the name of one (rule R92). -/
theorem zerosOp_frame (s : State) (len) : ∃ e o p, s.zerosOp len = { s with even := e, odd := o, opMat := p } := by
  obtain ⟨e, o, p, h⟩ := zerosLoop_frame (((s.op1bit .odd).matsq .odd).matsq .even) (bitlen len) len
  unfold State.zerosOp
  rw [h]
  exact ⟨_, _, _, rfl⟩

/-- One halving takes one off the logarithm (rule R93). -/
theorem log2_half (n : Nat) (h : 2 ≤ n) : Nat.log2 n = Nat.log2 (n/2) + 1 := by
  rw [Nat.log2_def]; simp [h]

/-- What the loop of `ZEROS_OP` returns (rule R94). -/
theorem zerosLoop_standsFor (fuel : Nat) : ∀ (s : State) (len n : Nat), 1 ≤ len → Nat.log2 len + 1 ≤ fuel → StandsFor s.odd (bitSteps n) →
    StandsFor ((s.zerosLoop fuel len).mat (s.zerosLoop fuel len).opMat) (bitSteps (n * 2 ^ (Nat.log2 len + 1))) := by
  induction fuel with
  | zero => intro s len n h1 h2; omega
  | succ fuel ih =>
    intro s len n h1 h2 h3
    have s1 : StandsFor (s.matsq .odd).even (bitSteps (n+n)) := standsFor_bits h3
    simp only [State.zerosLoop]
    have l1 : len >>> 1 = len / 2 := by simp [Nat.shiftRight_eq_div_pow]
    have l2 : len >>> 1 >>> 1 = len / 2 / 2 := by simp [Nat.shiftRight_eq_div_pow]
    rw [l2]
    rw [show len >>> 1 = len / 2 from l1]
    split
    · have : len = 1 := by omega
      subst this
      simpa [State.mat, show n * 2 = n + n by ring, show Nat.log2 1 = 0 by decide] using s1
    · rename_i ha
      have s2 : StandsFor ((s.matsq .odd).matsq .even).odd (bitSteps ((n+n)+(n+n))) := standsFor_bits s1
      have lg : Nat.log2 len = Nat.log2 (len/2) + 1 := by
        exact log2_half len (by omega)
      split
      · rename_i hb
        have : len / 2 = 1 := by omega
        rw [lg, this]
        simpa [State.mat, show n * (2*2) = n + n + (n+n) by ring, show Nat.log2 1 = 0 by decide, pow_succ] using s2
      · have lg2 : Nat.log2 (len/2) = Nat.log2 (len/2/2) + 1 := by
          exact log2_half (len/2) (by omega)
        have := ih ((s.matsq .odd).matsq .even) (len/2/2) _ (by omega) (by omega) s2
        rw [lg, lg2]
        rw [show n * 2 ^ (Nat.log2 (len/2/2) + 1 + 1 + 1) = (n + n + (n+n)) * 2 ^ (Nat.log2 (len/2/2) + 1) by ring]
        exact this

/-- What `ZEROS_OP` returns (rules R94, R95). -/
theorem zerosOp_standsFor (s : State) (len : Nat) (h : 1 ≤ len) : StandsFor ((s.zerosOp len).mat (s.zerosOp len).opMat) (fun v => zn v (2 ^ Nat.log2 len)) := by
  have o : StandsFor (((s.op1bit .odd).matsq .odd).matsq .even).odd (bitSteps 4) := by
    have h1 : StandsFor (s.op1bit .odd).odd (bitSteps 1) := standsFor_op1
    have h2 : StandsFor ((s.op1bit .odd).matsq .odd).even (bitSteps 2) := standsFor_bits h1
    exact standsFor_bits h2
  have := zerosLoop_standsFor (bitlen len) _ len 4 h (by simp [bitlen, show len ≠ 0 by omega]) o
  intro v
  show _ = zn v _
  rw [zn_eq_bitSteps]
  rw [show 8 * 2 ^ len.log2 = 4 * 2^(len.log2+1) by ring]
  exact this v

/-- The builds of `INIT` write the tables, the two buffers and the name of one (rule R162). -/
theorem buildTables_frame (s : State) :
    s.buildTables = { s with
      vt := s.buildTables.vt, lt := s.buildTables.lt, st := s.buildTables.st, even := s.buildTables.even,
      odd := s.buildTables.odd, opMat := s.buildTables.opMat } := by
  obtain ⟨e, o, p, h⟩ := zerosOp_frame { s with vt := vtBuild s.vt } s.cfg.long
  obtain ⟨e', o', p', h'⟩ :=
    zerosOp_frame (({ s with vt := vtBuild s.vt }.zerosOp s.cfg.long).shtabBuild .long) s.cfg.short
  unfold State.buildTables
  rw [h', h]
  rfl

end Sys2Proof.Machine
end

