-- ==== Sys2Proof/Laws/PerInstr.lean ====
section
/-!
SUPPORT. Families of facts about every instruction as syntax, one lemma for each constructor.
Port: the encoder puts a command on the request port and an internal operation on the sequencer's port, and nothing
else there (30_encoding.md rules R60, R66).
-/
namespace Sys2Proof

/-- Whether a code is a request packet. -/
def Code.isRequest : Code → Bool
  | .req _ => true
  | .uop _ => false

end Sys2Proof

namespace Sys2Proof.Laws.Port

/-- The port of an instruction's encoding is that of its class (rule R60). -/
def Statement (i : Instr) : Prop := ∀ aw, (encode aw i).isRequest = i.isCommand

theorem init : Statement .init := fun _ => rfl
theorem append (crc : Word) (addr len : Nat) : Statement (.append crc addr len) := fun _ => rfl
theorem hwavail : Statement .hwavail := fun _ => rfl
theorem matvec : Statement .matvec := fun _ => rfl
theorem matsq : Statement .matsq := fun _ => rfl
theorem op1bit : Statement .op1bit := fun _ => rfl
theorem zerosOp : Statement .zerosOp := fun _ => rfl
theorem shtabBuild (t : TableSel) : Statement (.shtabBuild t) := fun _ => rfl
theorem shiftApply (t : TableSel) : Statement (.shiftApply t) := fun _ => rfl
theorem vtRow0 : Statement .vtRow0 := fun _ => rfl
theorem vtRowk : Statement .vtRowk := fun _ => rfl
theorem vtBuild : Statement .vtBuild := fun _ => rfl
theorem xorF : Statement .xorF := fun _ => rfl
theorem byteFold : Statement .byteFold := fun _ => rfl
theorem blockFold (n : BlockWidth) : Statement (.blockFold n) := fun _ => rfl
theorem wordStep (w : WordWidth) : Statement (.wordStep w) := fun _ => rfl
theorem stream3 (t : TableSel) : Statement (.stream3 t) := fun _ => rfl
theorem recombine (t : TableSel) : Statement (.recombine t) := fun _ => rfl
theorem swAppend : Statement .swAppend := fun _ => rfl
theorem hwAppend : Statement .hwAppend := fun _ => rfl

end Sys2Proof.Laws.Port
end

