-- ==== Sys2Proof/Laws/Sequencer.lean ====
section
/-!
SUPPORT. The sequencer: what a turn can change, and what a run of each datapath leaves (44_software_engine.md rules R127, R128,
45_hardware_engine.md rules R151, R152).
-/
namespace Sys2Proof.Machine

/-! ## What a turn and a run leave alone -/

/-- Two states that differ in the context, the record of reads and the count of free values at most. -/
structure OnlyRuns (s t : State) : Prop where
  e : t = { s with ctx := t.ctx, reads := t.reads, freeCount := t.freeCount }
theorem OnlyRuns.refl (s : State) : OnlyRuns s s := ⟨rfl⟩
theorem OnlyRuns.trans {s t u : State} (h : OnlyRuns s t) (g : OnlyRuns t u) : OnlyRuns s u := ⟨by have a := h.e; have b := g.e; generalize t.ctx = c1 at a; generalize t.reads = c2 at a; generalize t.freeCount = c3 at a; subst a; exact b⟩
theorem onlyRuns_advance (s : State) (n) : OnlyRuns s (s.advance n) := by unfold State.advance; split <;> exact ⟨rfl⟩
theorem onlyRuns_setAligned (s : State) (a b c d) : OnlyRuns s (s.setAligned a b c d) := by unfold State.setAligned; split <;> exact ⟨rfl⟩
theorem onlyRuns_byteFold {s t} (h : byteFold s = .next t) : OnlyRuns s t := by
  unfold byteFold at h; rw [withRead_eq_next] at h; obtain ⟨_, h⟩ := h; cases h
  exact OnlyRuns.trans ⟨rfl⟩ (onlyRuns_advance _ _)
theorem onlyRuns_blockFold {s t n} (h : blockFold n s = .next t) : OnlyRuns s t := by
  unfold blockFold at h; rw [withRead_eq_next] at h; obtain ⟨_, h⟩ := h; cases h
  exact OnlyRuns.trans (OnlyRuns.trans ⟨rfl⟩ (onlyRuns_setAligned _ _ _ _ _)) (onlyRuns_advance _ _)
theorem onlyRuns_wordStep {s t w a p} (h : wordStep w a p s = .next t) : OnlyRuns s t := by
  unfold wordStep at h; rw [withRead_eq_next] at h; obtain ⟨_, h⟩ := h; cases h
  exact OnlyRuns.trans ⟨rfl⟩ (onlyRuns_setAligned _ _ _ _ _)
theorem onlyRuns_stream3 {s t b} (h : stream3 b s = .next t) : OnlyRuns s t := by
  unfold stream3 at h; simp only [withAccess_eq_next] at h; obtain ⟨_, h⟩ := h; split at h <;> cases h <;> exact ⟨rfl⟩
theorem onlyRuns_seqStep {s t} (h : seqStep s = .next t) : OnlyRuns s t := by
  unfold seqStep at h
  cases hp : s.ctx.phase <;> rw [hp] at h <;> simp only [loopPhase] at h
  all_goals (try (cases h; exact ⟨rfl⟩))
  all_goals
    split at h
    · first
      | exact onlyRuns_byteFold h
      | exact onlyRuns_blockFold h
      | (unfold streamRound at h; obtain ⟨u, h1, h2⟩ := andThen_eq_next.mp h; cases h2; exact (onlyRuns_stream3 h1).trans (OnlyRuns.trans ⟨rfl⟩ (onlyRuns_advance _ _)))
      | (unfold wordRound at h; obtain ⟨u, h1, h2⟩ := andThen_eq_next.mp h; cases h2; exact (onlyRuns_wordStep h1).trans (onlyRuns_advance _ _))
    · cases h; exact ⟨rfl⟩
theorem onlyRuns_runSeq {fuel} : ∀ {s t}, runSeq fuel s = .next t → OnlyRuns s t := by
  induction fuel with
  | zero => intro s t h; cases h; exact ⟨rfl⟩
  | succ n ih => 
    intro s t h
    simp only [runSeq] at h
    split at h
    · cases h; exact ⟨rfl⟩
    · obtain ⟨u, h1, h2⟩ := andThen_eq_next.mp h; exact (onlyRuns_seqStep h1).trans (ih h2)
theorem onlyRuns_swAppend {s t c a l} (h : swAppend c a l s = .next t) : OnlyRuns s t := OnlyRuns.trans ⟨rfl⟩ (onlyRuns_runSeq h)
theorem onlyRuns_hwAppend {s t c a l} (h : hwAppend c a l s = .next t) : OnlyRuns s t := OnlyRuns.trans ⟨rfl⟩ (onlyRuns_runSeq h)
theorem onlyRuns_runDatapath {s t c a l} (h : runDatapath c a l s = .next t) : OnlyRuns s t := by unfold runDatapath at h; split at h; exact onlyRuns_hwAppend h; exact onlyRuns_swAppend h

/-! ## Accesses and streams -/

/-- A fold goes on where the last one ended (rule R42). -/
theorem fold_bytes (m : Memory) (c : Word) (addr p n : Nat) (h : addr ≤ p) (e : c = rawFold x (m.bytes addr (p - addr))) :
   rawFold c (m.bytes p n) = rawFold x (m.bytes addr (p + n - addr)) := by
  rw [e, ← rawFold_append, show p + n - addr = (p - addr) + n by omega, Memory.bytes_add, show addr + (p - addr) = p by omega]

/-- The bytes of two lists of accesses. -/
theorem accessBytes_append (a b : List Access) : accessBytes (a ++ b) = accessBytes a ++ accessBytes b := by simp [accessBytes]

/-- A list of accesses that reads a range, and one that reads what follows it. -/
theorem accessBytes_extend {rs ls : List Access} {addr p n : Nat} (h : addr ≤ p) (h1 : (accessBytes rs).Perm (List.range' addr (p - addr)))
   (h2 : (accessBytes ls).Perm (List.range' p n)) : (accessBytes (rs ++ ls)).Perm (List.range' addr (p + n - addr)) := by
  rw [accessBytes_append]
  have : List.range' addr (p + n - addr) = List.range' addr (p - addr) ++ List.range' p n := by
    rw [show p + n - addr = (p - addr) + n by omega, ← List.range'_append_1, show addr + (p - addr) = p by omega]
  rw [this]
  exact h1.append h2

/-- One access. -/
theorem accessBytes_one (p n) : (accessBytes [⟨p,n⟩]).Perm (List.range' p n) := by simp [accessBytes]

/-- The loop of `STREAM3` moves no other register (rule R145). -/
theorem streamLoop_frame (c : Context) (m w b n off) : (Context.streamLoop c m w b n off).ptr = c.ptr ∧ (Context.streamLoop c m w b n off).rem = c.rem ∧ (Context.streamLoop c m w b n off).phase = c.phase := by
  induction n generalizing c off with
  | zero => exact ⟨rfl, rfl, rfl⟩
  | succ n ih => exact ih _ _

/-- The three accumulators in the loop of `STREAM3` (rule R145). -/
theorem streamLoop_vals (m : Memory) (w b : Nat) (n : Nat) : ∀ (c : Context) (off : Nat) x y z, 
   c.crc0 = rawFold x (m.bytes c.ptr off) → c.crc1 = rawFold y (m.bytes (c.ptr + b) off) → c.crc2 = rawFold z (m.bytes (c.ptr + 2*b) off) →
   (Context.streamLoop c m w b n off).crc0 = rawFold x (m.bytes c.ptr (off + n*w)) ∧
   (Context.streamLoop c m w b n off).crc1 = rawFold y (m.bytes (c.ptr+b) (off + n*w)) ∧
   (Context.streamLoop c m w b n off).crc2 = rawFold z (m.bytes (c.ptr+2*b) (off + n*w)) := by
  induction n with
  | zero => intro c off x y z h1 h2 h3; simp [Context.streamLoop, h1,h2,h3]
  | succ n ih =>
    intro c off x y z h1 h2 h3
    have := ih (c.streamStep m w b off) (off + w) x y z ?_ ?_ ?_
    · rw [show off + w + n * w = off + (n+1) * w by ring] at this
      exact this
    · show rawFold c.crc0 _ = _
      rw [h1, ← rawFold_append, ← Memory.bytes_add]; rfl
    · show rawFold c.crc1 _ = _
      rw [h2, ← rawFold_append, ← Memory.bytes_add]; rfl
    · show rawFold c.crc2 _ = _
      rw [h3, ← rawFold_append, ← Memory.bytes_add]; rfl

/-- The bytes of the loop of `STREAM3` (rule R145). -/
theorem accessBytes_stream (p w b n : Nat) : ∀ off, (accessBytes (streamAccesses p w b n off)).Perm
    (List.range' (p + off) (n*w) ++ (List.range' (p + b + off) (n*w) ++ List.range' (p+2*b+off) (n*w))) := by
  induction n with
  | zero => intro off; simp [streamAccesses, accessBytes]
  | succ n ih =>
    intro off
    have sp : ∀ q, List.range' q ((n+1)*w) = List.range' q w ++ List.range' (q+w) (n*w) := by
      intro q
      rw [show (n+1)*w = w + n*w by ring, ← List.range'_append]; simp
    rw [sp, sp, sp]
    have h := ih (off+w)
    rw [← Nat.add_assoc, ← Nat.add_assoc, ← Nat.add_assoc] at h
    simp only [streamAccesses, accessBytes, List.flatMap_cons] at h ⊢
    rw [List.perm_iff_count] at h ⊢
    intro a
    have := h a
    simp only [List.count_append] at this ⊢
    omega

/-- The word reads of `STREAM3` are aligned (rule R46). -/
theorem stream_aligned (p w b n : Nat) (hp : p % w = 0) (hb : b % w = 0) : ∀ off, off % w = 0 → ∀ x ∈ streamAccesses p w b n off, x.width = w ∧ x.addr % x.width = 0 := by
  induction n with
  | zero => intro off _ x h; simp [streamAccesses] at h
  | succ n ih =>
    intro off ho x h
    simp only [streamAccesses, List.mem_cons] at h
    have d1 := Nat.dvd_of_mod_eq_zero hp
    have d2 := Nat.dvd_of_mod_eq_zero hb
    have d3 := Nat.dvd_of_mod_eq_zero ho
    rcases h with rfl | rfl | rfl | h
    · exact ⟨rfl, Nat.mod_eq_zero_of_dvd (by simpa using Nat.dvd_add d1 d3)⟩
    · exact ⟨rfl, Nat.mod_eq_zero_of_dvd (Nat.dvd_add (Nat.dvd_add d1 d2) d3)⟩
    · exact ⟨rfl, Nat.mod_eq_zero_of_dvd (Nat.dvd_add (Nat.dvd_add d1 (Dvd.dvd.mul_left d2 _)) d3)⟩
    · exact ih (off+w) (Nat.mod_eq_zero_of_dvd (Nat.dvd_add d3 (dvd_refl w))) x h

/-- The divisions of rule R9. -/
theorem wf_divides (c : Config) (h : c.wf = true) : c.short ∣ c.long ∧ c.word.bytes ∣ c.short ∧ ∀ t, c.word.bytes ∣ c.streamLen t := by
  simp [Config.wf] at h
  have h1 := Nat.dvd_of_mod_eq_zero h.1.1.2
  have h2 := Nat.dvd_of_mod_eq_zero h.1.2
  refine ⟨h1, h2, ?_⟩
  intro t; cases t
  · exact h2.trans h1
  · exact h2

/-- `STREAM3` on bytes that can be read, aligned (rule R145). -/
theorem stream3_folds (s : State) (t : TableSel) (hw : s.cfg.wf = true)
    (h1 : s.CanRead s.ctx.ptr (3 * s.cfg.streamLen t)) (h2 : s.ctx.ptr % s.cfg.word.bytes = 0) :
    ∃ rs, stream3 t s = .next { s with
        ctx := { s.ctx with
          crc0 := rawFold s.ctx.crc0 (s.mem.bytes s.ctx.ptr (s.cfg.streamLen t)),
          crc1 := rawFold 0 (s.mem.bytes (s.ctx.ptr + s.cfg.streamLen t) (s.cfg.streamLen t)),
          crc2 := rawFold 0 (s.mem.bytes (s.ctx.ptr + 2 * s.cfg.streamLen t) (s.cfg.streamLen t)) },
        reads := s.reads ++ rs } ∧
      (accessBytes rs).Perm (List.range' s.ctx.ptr (3 * s.cfg.streamLen t)) ∧
      ∀ x ∈ rs, x.width = s.cfg.word.bytes ∧ x.addr % x.width = 0 := by
  have hd := (wf_divides _ hw).2.2 t
  have hm : s.cfg.streamLen t / s.cfg.word.bytes * s.cfg.word.bytes = s.cfg.streamLen t := Nat.div_mul_cancel hd
  refine ⟨(streamAccesses s.ctx.ptr s.cfg.word.bytes (s.cfg.streamLen t) (s.cfg.streamLen t / s.cfg.word.bytes) 0), (stream3_of_canRead h1 h2).trans ?_, ?_, ?_⟩
  · congr 2
    have f := streamLoop_frame { s.ctx with crc1 := 0, crc2 := 0 } s.mem s.cfg.word.bytes (s.cfg.streamLen t)
        (s.cfg.streamLen t / s.cfg.word.bytes) 0
    have v := streamLoop_vals s.mem s.cfg.word.bytes (s.cfg.streamLen t)
        (s.cfg.streamLen t / s.cfg.word.bytes) { s.ctx with crc1 := 0, crc2 := 0 } 0 s.ctx.crc0 0 0 rfl rfl rfl
    rw [hm, Nat.zero_add] at v
    obtain ⟨f1, f2, f3⟩ := f
    obtain ⟨v1, v2, v3⟩ := v
    generalize Context.streamLoop { s.ctx with crc1 := 0, crc2 := 0 } s.mem s.cfg.word.bytes (s.cfg.streamLen t)
        (s.cfg.streamLen t / s.cfg.word.bytes) 0 = c at *
    cases c; simp_all
  · have := accessBytes_stream s.ctx.ptr s.cfg.word.bytes (s.cfg.streamLen t) (s.cfg.streamLen t / s.cfg.word.bytes) 0
    rw [hm] at this
    refine this.trans ?_
    have e : List.range' s.ctx.ptr (3 * s.cfg.streamLen t) = List.range' s.ctx.ptr (s.cfg.streamLen t) ++ (List.range' (s.ctx.ptr + s.cfg.streamLen t) (s.cfg.streamLen t) ++ List.range' (s.ctx.ptr + 2 * s.cfg.streamLen t) (s.cfg.streamLen t)) := by
      rw [show s.ctx.ptr + 2 * s.cfg.streamLen t = s.ctx.ptr + s.cfg.streamLen t + s.cfg.streamLen t by ring, List.range'_append_1, List.range'_append_1]
      congr 1; ring
    rw [e]; exact List.Perm.refl _
  · exact stream_aligned _ _ _ _ h2 (Nat.mod_eq_zero_of_dvd hd) 0 (by simp)

/-! ## The runs -/

/-- The phases of datapath HW. -/
def Phase.isHw : Phase → Bool
  | .hwPre | .hwHead | .hwLong | .hwShort | .hwWords | .hwTail | .hwPost => true
  | _ => false

/-- How many turns that only go on are left. -/
def Phase.rank : Phase → Nat
  | .idle => 0
  | .swPre => 5 | .swHead => 4 | .swBlock => 3 | .swTail => 2 | .swPost => 1
  | .hwPre => 7 | .hwHead => 6 | .hwLong => 5 | .hwShort => 4 | .hwWords => 3 | .hwTail => 2 | .hwPost => 1

/-- A run of an `APPEND` of `len` bytes at `addr` from `crc`, begun in `s0`, with wide reads of `W` bytes: what holds of
every state on the way (rules R26, R42, R46, R47). -/
structure Running (s0 : State) (crc : Word) (addr len W : Nat) (s : State) : Prop where
  ex : ∃ c rs, s = { s0 with ctx := c, reads := s0.reads ++ rs } ∧ (accessBytes rs).Perm (List.range' addr (c.ptr - addr)) ∧
     ∀ x ∈ rs, x.addr % x.width = 0 ∧ (x.width = 1 ∨ x.width = W)
  lo : addr ≤ s.ctx.ptr
  tot : s.ctx.ptr + s.ctx.rem = addr + len
  al : s.ctx.phase ∈ [Phase.swBlock, .hwLong, .hwShort, .hwWords] → s.ctx.rem = 0 ∨ s.ctx.ptr % W = 0
  sw : s.ctx.phase ∈ [Phase.swPre, .swHead, .swBlock, .swTail, .swPost] → W = s0.cfg.block.bytes ∧ s.ctx.crc1 = s0.ctx.crc1 ∧ s.ctx.crc2 = s0.ctx.crc2
  hw : s.ctx.phase ∈ [Phase.hwPre, .hwHead, .hwLong, .hwShort, .hwWords, .hwTail, .hwPost] → W = s0.cfg.word.bytes
  fold : s.ctx.phase ≠ .swPre → s.ctx.phase ≠ .hwPre → s.ctx.phase ≠ .idle → s.ctx.crc0 = rawFold (crc ^^^ allOnes) (s0.mem.bytes addr (s.ctx.ptr - addr))
  pre : s.ctx.phase = .swPre ∨ s.ctx.phase = .hwPre → s.ctx.crc0 = crc ∧ s.ctx.ptr = addr
  post : s.ctx.phase ∈ [Phase.idle, .swPost, .hwPost] → s.ctx.rem = 0
  idle : s.ctx.phase = .idle → s.ctx.crc0 = crcOf crc (s0.mem.bytes addr len) ∧ (W = s0.cfg.word.bytes ∨ s.ctx.crc1 = s0.ctx.crc1 ∧ s.ctx.crc2 = s0.ctx.crc2)

/-- What `REM` counts can be read. -/
theorem Running.canRead {s0 s crc addr len W} (h : Running s0 crc addr len W s) (hc : s0.CanRead addr len) (n) (hn : n ≤ s.ctx.rem) : s.CanRead s.ctx.ptr n := by
  obtain ⟨c, rs, e, _⟩ := h.ex
  have := CanRead.mono hc (b := s.ctx.ptr) (m := n) h.lo (by have := h.tot; omega)
  rw [e] at *
  exact this

/-- A change of the context and the reads. -/
theorem update_reads {s0 s : State} {c rs} (e : s = { s0 with ctx := c, reads := s0.reads ++ rs }) (c' ls) : { s with ctx := c', reads := s.reads ++ ls } = { s0 with ctx := c', reads := s0.reads ++ (rs ++ ls) } := by
  rw [e]; simp

/-- A change of the context. -/
theorem update_ctx {s0 s : State} {c rs} (e : s = { s0 with ctx := c, reads := s0.reads ++ rs }) (c') : { s with ctx := c' } = { s0 with ctx := c', reads := s0.reads ++ rs } := by
  rw [e]

/-- A turn that folds `n` bytes keeps the run. -/
theorem running_advance {s0 s crc addr len W} (h : Running s0 crc addr len W s) (n : Nat) (hn : n ≤ s.ctx.rem) (v c1 c2 : Word) (ls : List Access)
   (hp : (accessBytes ls).Perm (List.range' s.ctx.ptr n)) (hl : ∀ x ∈ ls, x.addr % x.width = 0 ∧ (x.width = 1 ∨ x.width = W))
   (hv : v = rawFold s.ctx.crc0 (s.mem.bytes s.ctx.ptr n))
   (hph : s.ctx.phase ∈ [Phase.swHead, .swBlock, .swTail, .hwHead, .hwLong, .hwShort, .hwWords, .hwTail])
   (hal : s.ctx.phase ∈ [Phase.swBlock, .hwLong, .hwShort, .hwWords] → (s.ctx.ptr + n) % W = 0)
   (h12 : s.ctx.phase ∈ [Phase.swHead, .swBlock, .swTail] → c1 = s.ctx.crc1 ∧ c2 = s.ctx.crc2) :
   Running s0 crc addr len W { s with ctx := { s.ctx with crc0 := v, crc1 := c1, crc2 := c2, ptr := s.ctx.ptr + n, rem := s.ctx.rem - n }, reads := s.reads ++ ls } := by
  obtain ⟨c, rs, e, hp0, hl0⟩ := h.ex
  have hm : s.mem = s0.mem := by rw [e]
  have hcc : s.ctx = c := by rw [e]
  rw [← hcc] at hp0
  refine ⟨⟨_, rs ++ ls, update_reads e _ _, accessBytes_extend h.lo hp0 hp, ?_⟩, ?_, ?_, ?_, ?_, ?_, ?_, ?_, ?_, ?_⟩
  · intro x hx; rcases List.mem_append.mp hx with hx | hx
    · exact hl0 x hx
    · exact hl x hx
  · have := h.lo; show addr ≤ s.ctx.ptr + n; omega
  · have := h.tot; show s.ctx.ptr + n + (s.ctx.rem - n) = _; omega
  · intro hx; exact .inr (hal hx)
  · intro hx
    have := h.sw hx
    have := h12 (by
      simp only [List.mem_cons, List.not_mem_nil, or_false] at hx hph ⊢
      rcases hx with hx | hx | hx | hx | hx <;> simp_all)
    simp_all
  · exact h.hw
  · intro h1 h2 h3
    have := h.fold h1 h2 h3
    show v = _
    rw [hv, hm]
    exact fold_bytes _ _ _ _ _ h.lo this
  · intro hx
    exfalso
    simp only [List.mem_cons, List.not_mem_nil, or_false] at hx hph
    change s.ctx.phase = _ ∨ s.ctx.phase = _ at hx
    rcases hx with hx | hx <;> rw [hx] at hph <;> simp at hph
  · intro hx
    exfalso
    simp only [List.mem_cons, List.not_mem_nil, or_false] at hx hph
    change s.ctx.phase = _ ∨ s.ctx.phase = _ ∨ s.ctx.phase = _ at hx
    rcases hx with hx | hx | hx <;> rw [hx] at hph <;> simp at hph
  · intro hx
    exfalso
    simp only [List.mem_cons, List.not_mem_nil, or_false] at hx hph
    change s.ctx.phase = _ at hx
    rw [hx] at hph; simp at hph

/-- The tables are those of another state. -/
theorem tablesBuilt_congr {s0 s : State} (h : s0.TablesBuilt) (h1 : s.vt = s0.vt) (h2 : s.lt = s0.lt) (h3 : s.st = s0.st) (h4 : s.cfg = s0.cfg) : s.TablesBuilt := by
  unfold State.TablesBuilt; rw [h1,h2,h3,h4]; exact h

/-- A turn that keeps the run and comes nearer to its end. -/
def Proceeds (s0 : State) (crc : Word) (addr len W : Nat) (s : State) (r : Result) : Prop :=
  ∃ t, r = .next t ∧ Running s0 crc addr len W t ∧ t.ctx.rem + Phase.rank t.ctx.phase < s.ctx.rem + Phase.rank s.ctx.phase

/-- A byte fold in a head or a tail. -/
theorem proceeds_byteFold {s0 s crc addr len W} (h : Running s0 crc addr len W s) (hc : s0.CanRead addr len) (hb : s0.TablesBuilt) (hr : 0 < s.ctx.rem)
  (hph : s.ctx.phase ∈ [Phase.swHead, .swTail, .hwHead, .hwTail]) : Proceeds s0 crc addr len W s (byteFold s) := by
  have e := byteFold_of_canRead (h.canRead hc 1 hr) hr
  obtain ⟨c, rs, e0, _⟩ := h.ex
  refine ⟨_, e, ?_, ?_⟩
  · refine running_advance h 1 hr _ s.ctx.crc1 s.ctx.crc2 _ (accessBytes_one _ _) ?_ ?_ ?_ ?_ ?_
    · simp [Nat.mod_one]
    · rw [byteFoldValue_of_entries _ (fun n => (show s.TablesBuilt from tablesBuilt_congr hb (by rw [e0]) (by rw [e0]) (by rw [e0]) (by rw [e0])).1 0 n (by omega))]; rfl
    · simp only [List.mem_cons, List.not_mem_nil, or_false] at hph ⊢; tauto
    · intro hx
      exfalso
      simp only [List.mem_cons, List.not_mem_nil, or_false] at hx hph
      rcases hx with hx | hx | hx | hx <;> rw [hx] at hph <;> simp at hph
    · intro _; exact ⟨rfl, rfl⟩
  · show s.ctx.rem - 1 + _ < _; have : Phase.rank s.ctx.phase = Phase.rank s.ctx.phase := rfl; simp only; omega

/-- A phase whose test is false. -/
theorem proceeds_phase {s0 s crc addr len W} (h : Running s0 crc addr len W s) (p : Phase)
   (hph : s.ctx.phase ∈ [Phase.swHead, .swBlock, .swTail, .hwHead, .hwLong, .hwShort, .hwWords, .hwTail])
   (hp : p = s.ctx.phase.after)
   (hal : p ∈ [Phase.swBlock, .hwLong, .hwShort, .hwWords] → s.ctx.rem = 0 ∨ s.ctx.ptr % W = 0)
   (hpost : p ∈ [Phase.swPost, .hwPost] → s.ctx.rem = 0) :  Proceeds s0 crc addr len W s (.next (s.setPhase p)) := by
  refine ⟨_, rfl, ?_, ?_⟩
  · obtain ⟨c, rs, e, hp0, hl0⟩ := h.ex
    have hcc : s.ctx = c := by rw [e]
    have hf := h.fold
    have hs := h.sw
    have hh := h.hw
    refine ⟨⟨{c with phase := p}, rs, by rw [e]; rfl, hp0, hl0⟩, h.lo, h.tot, hal, ?_, ?_, ?_, ?_, ?_, ?_⟩
    all_goals
      simp only [List.mem_cons, List.not_mem_nil, or_false] at *
      subst hp
      rcases hph with hx | hx | hx | hx | hx | hx | hx | hx <;> simp [State.setPhase, hx, Phase.after] at * <;> simp_all
  · simp only [List.mem_cons, List.not_mem_nil, or_false] at hph
    subst hp
    show s.ctx.rem + _ < _
    rcases hph with hx | hx | hx | hx | hx | hx | hx | hx <;> simp [State.setPhase, hx, Phase.after, Phase.rank]

/-- A turn of `SW_BLOCK` (rule R125). -/
theorem proceeds_blockFold {s0 s crc addr len} (h : Running s0 crc addr len s0.cfg.block.bytes s) (hc : s0.CanRead addr len) (hb : s0.TablesBuilt) (hr : s0.cfg.block.bytes ≤ s.ctx.rem)
  (hph : s.ctx.phase = .swBlock) : Proceeds s0 crc addr len s0.cfg.block.bytes s (blockFold s.cfg.block s) := by
  obtain ⟨c, rs, e0, _⟩ := h.ex
  have ec : s.cfg = s0.cfg := by rw [e0]
  have hpos : 4 ≤ s0.cfg.block.bytes ∧ s0.cfg.block.bytes ≤ 16 := by cases s0.cfg.block <;> decide
  have hal : s.ctx.ptr % s0.cfg.block.bytes = 0 := by
    rcases h.al (by simp [hph]) with h | h
    · omega
    · exact h
  have e := blockFold_of_canRead (n := s.cfg.block) (h.canRead hc _ (by rw [ec]; exact hr)) (by rw [ec]; exact hr) (by rw [ec]; exact hal)
  have e : blockFold s.cfg.block s = .next { s with
      ctx := { s.ctx with
        crc0 := blockFoldValue s.vt s0.cfg.block.bytes s.ctx.crc0 (s.mem.bytes s.ctx.ptr s0.cfg.block.bytes),
        ptr := s.ctx.ptr + s0.cfg.block.bytes, rem := s.ctx.rem - s0.cfg.block.bytes },
      reads := s.reads ++ [{ addr := s.ctx.ptr, width := s0.cfg.block.bytes }] } := by rw [e]; simp only [ec]
  refine ⟨_, e, ?_, ?_⟩
  · refine running_advance h _ hr _ s.ctx.crc1 s.ctx.crc2 _ (accessBytes_one _ _) ?_ ?_ (by simp [hph]) ?_ (fun _ => ⟨rfl, rfl⟩)
    · simp [hal]
    · exact blockFoldValue_of_entries _ ((show s.TablesBuilt from tablesBuilt_congr hb (by rw [e0]) (by rw [e0]) (by rw [e0]) (by rw [e0])).1) _ _ _ hpos.1 hpos.2 (by simp)
    · intro _; simp [hal]
  · show s.ctx.rem - _ + _ < _; simp only; omega

/-- A turn of `HW_WORDS` (rule R148). -/
theorem proceeds_wordRound {s0 s crc addr len} (h : Running s0 crc addr len s0.cfg.word.bytes s) (hc : s0.CanRead addr len) (hr : s0.cfg.word.bytes ≤ s.ctx.rem)
  (hph : s.ctx.phase = .hwWords) : Proceeds s0 crc addr len s0.cfg.word.bytes s (wordRound s) := by
  obtain ⟨c, rs, e0, _⟩ := h.ex
  have ec : s.cfg = s0.cfg := by rw [e0]
  have hpos : 4 ≤ s0.cfg.word.bytes := by cases s0.cfg.word <;> decide
  have hal : s.ctx.ptr % s0.cfg.word.bytes = 0 := by
    rcases h.al (by simp [hph]) with h | h
    · omega
    · exact h
  have e : wordRound s = .next { s with 
     ctx := { s.ctx with crc0 := rawFold s.ctx.crc0 (s.mem.bytes s.ctx.ptr s0.cfg.word.bytes), ptr := s.ctx.ptr + s0.cfg.word.bytes, rem := s.ctx.rem - s0.cfg.word.bytes },
     reads := s.reads ++ [⟨s.ctx.ptr, s0.cfg.word.bytes⟩] } := by
    unfold wordRound
    rw [wordStep_of_canRead (h.canRead hc _ (by rw [ec]; exact hr)) (by rw [ec]; exact hal), andThen_ok, advance_of_le (by rw [ec]; exact hr), ec]
    rfl
  refine ⟨_, e, ?_, ?_⟩
  · refine running_advance h _ hr _ s.ctx.crc1 s.ctx.crc2 _ (accessBytes_one _ _) ?_ rfl (by simp [hph]) ?_ (fun _ => ⟨rfl, rfl⟩)
    · simp [hal]
    · intro _; simp [hal]
  · show s.ctx.rem - _ + _ < _; simp only; omega

/-- A turn of `HW_LONG` or `HW_SHORT` (rules R146, R147). -/
theorem proceeds_streamRound {s0 s crc addr len} (t) (h : Running s0 crc addr len s0.cfg.word.bytes s) (hwf : s0.cfg.wf = true) (hc : s0.CanRead addr len) (hb : s0.TablesBuilt) (hr : 3 * s0.cfg.streamLen t ≤ s.ctx.rem)
  (hph : s.ctx.phase = .hwLong ∨ s.ctx.phase = .hwShort) : Proceeds s0 crc addr len s0.cfg.word.bytes s (streamRound t s) := by
  obtain ⟨c, rs, e0, _⟩ := h.ex
  have ec : s.cfg = s0.cfg := by rw [e0]
  have hB : 0 < s0.cfg.streamLen t := by
    simp [Config.wf, isPow2] at hwf
    cases t
    · show 0 < s0.cfg.long; rw [hwf.1.1.1.1]; positivity
    · show 0 < s0.cfg.short; rw [hwf.1.1.1.2]; positivity
  have hal : s.ctx.ptr % s0.cfg.word.bytes = 0 := by
    rcases h.al (by rcases hph with h | h <;> simp [h]) with h | h
    · omega
    · exact h
  obtain ⟨rs', e1, hperm, hacc⟩ := stream3_folds s t (by rw [ec]; exact hwf) (h.canRead hc _ (by rw [ec]; exact hr)) (by rw [ec]; exact hal)
  have tb : s.TablesBuilt := tablesBuilt_congr hb (by rw [e0]) (by rw [e0]) (by rw [e0]) (by rw [e0])
  rw [ec] at e1 hperm hacc
  have e : streamRound t s = .next { s with 
     ctx := { s.ctx with
        crc0 := rawFold s.ctx.crc0 (s.mem.bytes s.ctx.ptr (3 * s0.cfg.streamLen t)),
        crc1 := rawFold 0 (s.mem.bytes (s.ctx.ptr + s0.cfg.streamLen t) (s0.cfg.streamLen t)),
        crc2 := rawFold 0 (s.mem.bytes (s.ctx.ptr + 2 * s0.cfg.streamLen t) (s0.cfg.streamLen t)),
        ptr := s.ctx.ptr + 3 * s0.cfg.streamLen t, rem := s.ctx.rem - 3 * s0.cfg.streamLen t },
     reads := s.reads ++ rs' } := by
    unfold streamRound
    rw [e1, andThen_ok, advance_of_le (by rw [ec]; exact hr), ec]
    congr 1
    simp only [State.recombine, State.setAcc, Context.setAcc]
    congr 2
    simp only [recombineValue]
    have hsh : ∀ c, shiftApply (s.shiftTable t) c = zn c (s0.cfg.streamLen t) := by
      intro c
      rw [← ec]
      cases t
      · exact shiftApply_of_entries _ _ tb.2.1 c
      · exact shiftApply_of_entries _ _ tb.2.2 c
    show shiftApply (s.shiftTable t) (shiftApply (s.shiftTable t) _ ^^^ _) ^^^ _ = _
    rw [hsh, hsh]
    have hcomb : ∀ (s : Word) (a b : List Byte), rawFold s (a ++ b) = zn (rawFold s a) b.length ^^^ rawFold 0 b :=
      fun s a b => by rw [rawFold_append, rawFold_from_zero]
    rw [show 3 * s0.cfg.streamLen t = s0.cfg.streamLen t + s0.cfg.streamLen t + s0.cfg.streamLen t by ring, Memory.bytes_add, Memory.bytes_add, hcomb, hcomb]
    simp only [Memory.bytes_length]
    rw [show s.ctx.ptr + (s0.cfg.streamLen t + s0.cfg.streamLen t) = s.ctx.ptr + 2 * s0.cfg.streamLen t by ring]
  refine ⟨_, e, ?_, ?_⟩
  · refine running_advance h _ hr _ _ _ _ hperm ?_ rfl (by rcases hph with h | h <;> simp [h]) ?_ ?_
    · intro x hx; exact ⟨(hacc x hx).2, .inr (hacc x hx).1⟩
    · intro _
      have := (wf_divides _ hwf).2.2 t
      exact Nat.mod_eq_zero_of_dvd (Nat.dvd_add (Nat.dvd_of_mod_eq_zero hal) (Dvd.dvd.mul_left this _))
    · intro hx; exfalso
      rcases hph with h | h <;> rw [h] at hx <;> simp at hx
  · show s.ctx.rem - _ + _ < _; simp only; omega

/-- Every turn (rules R127, R151). -/
theorem proceeds_seqStep {s0 s crc addr len W} (h : Running s0 crc addr len W s) (hwf : s0.cfg.wf = true) (hc : s0.CanRead addr len) (hb : s0.TablesBuilt)
   (hph : s.ctx.phase ≠ .idle) : Proceeds s0 crc addr len W s (seqStep s) := by
  obtain ⟨c, rs, e0, hp0, hl0⟩ := h.ex
  have ec : s.cfg = s0.cfg := by rw [e0]
  have hcc : s.ctx = c := by rw [e0]
  have hsw := h.sw
  have hhw := h.hw
  simp only [List.mem_cons, List.not_mem_nil, or_false] at hsw hhw
  have hp0' := hp0; rw [← hcc] at hp0'
  have xc : ∀ p, s.xorF.setPhase p = {s with ctx := {s.ctx with crc0 := s.ctx.crc0 ^^^ allOnes, phase := p}} := fun _ => rfl
  unfold seqStep
  cases hp : s.ctx.phase with
  | idle => exact absurd hp hph
  | swPre =>
    obtain ⟨h1, h2⟩ := h.pre (.inl hp)
    obtain ⟨g1, g2, g3⟩ := hsw (by simp [hp])
    refine ⟨_, rfl, ?_, by simp [xc, Phase.rank, hp]⟩
    rw [xc]
    exact ⟨⟨_, rs, update_ctx e0 _, hp0', hl0⟩, h.lo, h.tot, by simp, fun _ => ⟨g1, g2, g3⟩, by simp, fun _ _ _ => by simp [h1, h2, rawFold, Memory.bytes], by simp, by simp, by simp⟩
  | hwPre =>
    obtain ⟨h1, h2⟩ := h.pre (.inr hp)
    have g1 := hhw (by simp [hp])
    refine ⟨_, rfl, ?_, by simp [xc, Phase.rank, hp]⟩
    rw [xc]
    exact ⟨⟨_, rs, update_ctx e0 _, hp0', hl0⟩, h.lo, h.tot, by simp, by simp, fun _ => g1, fun _ _ _ => by simp [h1, h2, rawFold, Memory.bytes], by simp, by simp, by simp⟩
  | swPost =>
    have hr := h.post (by simp [hp])
    have ht := h.tot
    obtain ⟨g1, g2, g3⟩ := hsw (by simp [hp])
    have hf := h.fold (by simp [hp]) (by simp [hp]) (by simp [hp])
    refine ⟨_, rfl, ?_, by simp [xc, Phase.rank, hp]⟩
    rw [xc]
    refine ⟨⟨_, rs, update_ctx e0 _, hp0', hl0⟩, h.lo, h.tot, by simp, by simp, by simp, by simp, by simp, fun _ => hr, fun _ => ⟨?_, .inr ⟨g2, g3⟩⟩⟩
    show s.ctx.crc0 ^^^ _ = _
    rw [hf, show s.ctx.ptr - addr = len by omega]; rfl
  | hwPost =>
    have hr := h.post (by simp [hp])
    have ht := h.tot
    have g1 := hhw (by simp [hp])
    have hf := h.fold (by simp [hp]) (by simp [hp]) (by simp [hp])
    refine ⟨_, rfl, ?_, by simp [xc, Phase.rank, hp]⟩
    rw [xc]
    refine ⟨⟨_, rs, update_ctx e0 _, hp0', hl0⟩, h.lo, h.tot, by simp, by simp, by simp, by simp, by simp, fun _ => hr, fun _ => ⟨?_, .inl g1⟩⟩
    show s.ctx.crc0 ^^^ _ = _
    rw [hf, show s.ctx.ptr - addr = len by omega]; rfl
  | swHead =>
    obtain ⟨g1, _⟩ := hsw (by simp [hp])
    simp only [loopPhase]
    split
    · rename_i hx; simp at hx
      exact proceeds_byteFold h hc hb hx.1 (by simp [hp])
    · rename_i hx; simp at hx
      refine proceeds_phase h _ (by simp [hp]) (by simp [hp, Phase.after]) ?_ (by simp)
      intro _; rw [g1, ← ec]; by_cases h0 : s.ctx.rem = 0
      · exact .inl h0
      · exact .inr (hx (by omega))
  | swBlock =>
    obtain ⟨g1, _⟩ := hsw (by simp [hp])
    subst g1
    simp only [loopPhase]
    split
    · rename_i hx; simp at hx
      exact proceeds_blockFold h hc hb (by rw [← ec]; exact hx) hp
    · exact proceeds_phase h _ (by simp [hp]) (by simp [hp, Phase.after]) (by simp) (by simp)
  | swTail =>
    simp only [loopPhase]
    split
    · rename_i hx; simp at hx
      exact proceeds_byteFold h hc hb hx (by simp [hp])
    · rename_i hx; simp at hx
      exact proceeds_phase h _ (by simp [hp]) (by simp [hp, Phase.after]) (by simp) (fun _ => hx)
  | hwHead =>
    have g1 := hhw (by simp [hp])
    simp only [loopPhase]
    split
    · rename_i hx; simp at hx
      exact proceeds_byteFold h hc hb hx.1 (by simp [hp])
    · rename_i hx; simp at hx
      refine proceeds_phase h _ (by simp [hp]) (by simp [hp, Phase.after]) ?_ (by simp)
      intro _; rw [g1, ← ec]; by_cases h0 : s.ctx.rem = 0
      · exact .inl h0
      · exact .inr (hx (by omega))
  | hwLong =>
    have g1 := hhw (by simp [hp])
    subst g1
    simp only [loopPhase]
    split
    · rename_i hx; simp at hx
      exact proceeds_streamRound .long h hwf hc hb (by rw [← ec]; exact hx) (.inl hp)
    · exact proceeds_phase h _ (by simp [hp]) (by simp [hp, Phase.after]) (fun _ => h.al (by simp [hp])) (by simp)
  | hwShort =>
    have g1 := hhw (by simp [hp])
    subst g1
    simp only [loopPhase]
    split
    · rename_i hx; simp at hx
      exact proceeds_streamRound .short h hwf hc hb (by rw [← ec]; exact hx) (.inr hp)
    · exact proceeds_phase h _ (by simp [hp]) (by simp [hp, Phase.after]) (fun _ => h.al (by simp [hp])) (by simp)
  | hwWords =>
    have g1 := hhw (by simp [hp])
    subst g1
    simp only [loopPhase]
    split
    · rename_i hx; simp at hx
      exact proceeds_wordRound h hc (by rw [← ec]; exact hx) hp
    · exact proceeds_phase h _ (by simp [hp]) (by simp [hp, Phase.after]) (by simp) (by simp)
  | hwTail =>
    simp only [loopPhase]
    split
    · rename_i hx; simp at hx
      exact proceeds_byteFold h hc hb hx (by simp [hp])
    · rename_i hx; simp at hx
      exact proceeds_phase h _ (by simp [hp]) (by simp [hp, Phase.after]) (by simp) (fun _ => hx)

/-- A run comes to its end (rule R57). -/
theorem runSeq_running {s0 crc addr len W} (hwf : s0.cfg.wf = true) (hc : s0.CanRead addr len) (hb : s0.TablesBuilt) (fuel : Nat) :
    ∀ s, Running s0 crc addr len W s → s.ctx.rem + Phase.rank s.ctx.phase < fuel → ∃ t, runSeq fuel s = .next t ∧ Running s0 crc addr len W t ∧ t.ctx.phase = .idle := by
  induction fuel with
  | zero => intro s _ h; omega
  | succ n ih =>
    intro s h hm
    simp only [runSeq]
    split
    · rename_i hp; exact ⟨s, rfl, h, hp⟩
    · rename_i hp
      obtain ⟨t, e, hg, hlt⟩ := proceeds_seqStep h hwf hc hb hp
      rw [e, andThen_ok]
      exact ih t hg (by omega)

/-- Datapath SW does not touch `CRC1` and `CRC2` (rule R120). -/
theorem seqStep_software {s t : State} (h : s.ctx.phase.isHw = false) (e : seqStep s = .next t) : t.ctx.crc1 = s.ctx.crc1 ∧ t.ctx.crc2 = s.ctx.crc2 ∧ t.ctx.phase.isHw = false := by
  have hbf : ∀ t, byteFold s = .next t → t.ctx.crc1 = s.ctx.crc1 ∧ t.ctx.crc2 = s.ctx.crc2 ∧ t.ctx.phase.isHw = false := by
    intro t e
    unfold byteFold at e
    rw [withRead_eq_next] at e
    obtain ⟨_, e⟩ := e
    cases e
    unfold State.advance; split <;> simp [State.setAcc, Context.setAcc, h]
  have hbk : ∀ t n, blockFold n s = .next t → t.ctx.crc1 = s.ctx.crc1 ∧ t.ctx.crc2 = s.ctx.crc2 ∧ t.ctx.phase.isHw = false := by
    intro t n e
    unfold blockFold at e
    rw [withRead_eq_next] at e
    obtain ⟨_, e⟩ := e
    cases e
    unfold State.advance State.setAligned; split <;> split <;> simp [State.setAcc, Context.setAcc, State.freeAcc, h]
  unfold seqStep at e
  cases hp : s.ctx.phase <;> rw [hp] at e h <;> simp [Phase.isHw] at h <;> simp only [loopPhase] at e
  · cases e; simp [hp, Phase.isHw]
  · cases e; simp [State.setPhase, State.xorF, State.setAcc, Context.setAcc, Phase.isHw]
  · split at e
    · exact hbf _ e
    · cases e; simp [State.setPhase, Phase.isHw]
  · split at e
    · exact hbk _ _ e
    · cases e; simp [State.setPhase, Phase.isHw]
  · split at e
    · exact hbf _ e
    · cases e; simp [State.setPhase, Phase.isHw]
  · cases e; simp [State.setPhase, State.xorF, State.setAcc, Context.setAcc, Phase.isHw]

/-- A run of datapath SW. -/
theorem runSeq_software {s0 crc addr len W} (hwf : s0.cfg.wf = true) (hc : s0.CanRead addr len) (hb : s0.TablesBuilt) (fuel : Nat) :
    ∀ s, Running s0 crc addr len W s → s.ctx.rem + Phase.rank s.ctx.phase < fuel → s.ctx.phase.isHw = false → ∃ t, runSeq fuel s = .next t ∧ Running s0 crc addr len W t ∧ t.ctx.phase = .idle ∧ t.ctx.crc1 = s.ctx.crc1 ∧ t.ctx.crc2 = s.ctx.crc2 := by
  induction fuel with
  | zero => intro s _ h; omega
  | succ n ih =>
    intro s h hm hf
    simp only [runSeq]
    split
    · rename_i hp; exact ⟨s, rfl, h, hp, rfl, rfl⟩
    · rename_i hp
      obtain ⟨t, e, hg, hlt⟩ := proceeds_seqStep h hwf hc hb hp
      have := seqStep_software hf e
      rw [e, andThen_ok]
      obtain ⟨u, h1, h2, h3, h4, h5⟩ := ih t hg (by omega) this.2.2
      exact ⟨u, h1, h2, h3, by rw [h4, this.1], by rw [h5, this.2.1]⟩

/-- The start of `SW_APPEND`. -/
theorem running_loadSoftware (s : State) (crc addr len) : Running s crc addr len s.cfg.block.bytes (s.load crc addr len .swPre) := by
  refine ⟨⟨_, [], (by rw [List.append_nil]; rfl), (by simp [accessBytes]), by simp⟩, ?_, ?_, ?_, ?_, ?_, ?_, ?_, ?_, ?_⟩ <;> simp [State.load]

/-- The start of `HW_APPEND`. -/
theorem running_loadHardware (s : State) (crc addr len) : Running s crc addr len s.cfg.word.bytes (s.load crc addr len .hwPre) := by
  refine ⟨⟨_, [], (by rw [List.append_nil]; rfl), (by simp [accessBytes]), by simp⟩, ?_, ?_, ?_, ?_, ?_, ?_, ?_, ?_, ?_⟩ <;> simp [State.load]

end Sys2Proof.Machine
end

