-- ==== Sys2Proof/Tests/Slice0.lean ====
section
/-!
SUPPORT. Tests: ill-formed terms that WellFormed and Config refuse, words written out bit by bit from 30_encoding.md, one
step of each instruction with the numbers of 95_test_vectors.md and 96_test_tables_and_traces.md, and for every
obligation with hypotheses a state that meets them.
-/
namespace Sys2Proof.Tests
open Sys2Proof Sys2Proof.Machine

/-! ## WellFormed and Config -/

theorem test_wf_addr_top : (Instr.append 0 (2 ^ 64 - 1) 0).wf .standard = true := by decide
theorem test_wf_addr_refused : (Instr.append 0 (2 ^ 64) 0).wf .standard = false := by decide
theorem test_wf_len_top : (Instr.append 0 0 (2 ^ 64 - 1)).wf .standard = true := by decide
theorem test_wf_len_refused : (Instr.append 0 0 (2 ^ 64)).wf .standard = false := by decide

/-- The defaults of rule R7. -/
theorem test_config_standard : Config.standard.wf = true := by decide
/-- Rule R9 (a): `LONG` is no power of two. -/
theorem test_config_long : { Config.standard with long := 768 }.wf = false := by decide
/-- Rule R9 (a): `SHORT` is no power of two. -/
theorem test_config_short : { Config.standard with short := 24 }.wf = false := by decide
/-- Rule R9 (b): `SHORT` does not divide `LONG`. -/
theorem test_config_short_long : { Config.standard with long := 256, short := 512 }.wf = false := by decide
/-- Rule R9 (b): `WORD` does not divide `SHORT`. -/
theorem test_config_word : { Config.standard with short := 4 }.wf = false := by decide
/-- Rule R9 (c): `3 × LONG` does not fit the address space. -/
theorem test_config_space : { Config.standard with addrW := 14 }.wf = false := by decide

/-! ## Words written out from rules R61, R63, R64 -/

/-- Rule R64: no two patterns cover one code. -/
theorem test_uop_rows_disjoint :
    uopRows.Pairwise fun a b => a.pattern &&& (a.mask &&& b.mask) ≠ b.pattern &&& (a.mask &&& b.mask) := by decide

/-- The `INIT` of V-D17 with junk operands. -/
theorem test_decode_init :
    decode 64 (.req 0xFFFFFFFFFFFFFFFF0000000000001234DEADBEEF01) = .ok .init := by decide
/-- The fifth request of V-P2. -/
theorem test_decode_append :
    decode 64 (.req 0x0000000000000003000000000000200CE306928302) = .ok (.append 0xE3069283 0x200C 3) := by decide
/-- The same request in a build with `ADDR_W = 16`: 72 bits. -/
theorem test_decode_append_narrow :
    decode 16 (.req 0x0003200CE306928302) = .ok (.append 0xE3069283 0x200C 3) := by decide
theorem test_decode_hwavail :
    decode 64 (.req 0x000000000000000000000000000000000000000003) = .ok .hwavail := by decide
/-- The second request of V-P5: an operation code is no command. -/
theorem test_decode_reserved_op :
    decode 64 (.req 0x000000000000000100000000000000001234567821) = .error (.reservedOp 0x21) := by decide

theorem test_decode_matvec : decode 64 (.uop 0b00010000) = .ok .matvec := by decide
theorem test_decode_matsq : decode 64 (.uop 0b00010001) = .ok .matsq := by decide
theorem test_decode_op1bit : decode 64 (.uop 0b00010010) = .ok .op1bit := by decide
theorem test_decode_zerosOp : decode 64 (.uop 0b00010011) = .ok .zerosOp := by decide
theorem test_decode_shtabBuild_long : decode 64 (.uop 0b00010100) = .ok (.shtabBuild .long) := by decide
theorem test_decode_shtabBuild_short : decode 64 (.uop 0b00010101) = .ok (.shtabBuild .short) := by decide
theorem test_decode_shiftApply_long : decode 64 (.uop 0b00010110) = .ok (.shiftApply .long) := by decide
theorem test_decode_shiftApply_short : decode 64 (.uop 0b00010111) = .ok (.shiftApply .short) := by decide
theorem test_decode_vtRow0 : decode 64 (.uop 0b00011000) = .ok .vtRow0 := by decide
theorem test_decode_vtRowk : decode 64 (.uop 0b00011001) = .ok .vtRowk := by decide
theorem test_decode_vtBuild : decode 64 (.uop 0b00011010) = .ok .vtBuild := by decide
theorem test_decode_xorF : decode 64 (.uop 0b00100000) = .ok .xorF := by decide
theorem test_decode_byteFold : decode 64 (.uop 0b00100001) = .ok .byteFold := by decide
theorem test_decode_blockFold_8 : decode 64 (.uop 0b00100010) = .ok (.blockFold .b8) := by decide
theorem test_decode_blockFold_16 : decode 64 (.uop 0b00100011) = .ok (.blockFold .b16) := by decide
theorem test_decode_wordStep_4 : decode 64 (.uop 0b00100100) = .ok (.wordStep .w4) := by decide
theorem test_decode_wordStep_8 : decode 64 (.uop 0b00100101) = .ok (.wordStep .w8) := by decide
theorem test_decode_stream3_long : decode 64 (.uop 0b00100110) = .ok (.stream3 .long) := by decide
theorem test_decode_stream3_short : decode 64 (.uop 0b00100111) = .ok (.stream3 .short) := by decide
theorem test_decode_recombine_long : decode 64 (.uop 0b00101000) = .ok (.recombine .long) := by decide
theorem test_decode_recombine_short : decode 64 (.uop 0b00101001) = .ok (.recombine .short) := by decide
theorem test_decode_swAppend : decode 64 (.uop 0b00101010) = .ok .swAppend := by decide
theorem test_decode_hwAppend : decode 64 (.uop 0b00101011) = .ok .hwAppend := by decide
theorem test_decode_reserved_uop : decode 64 (.uop 0b00011011) = .error (.reservedUop 0b00011011) := by decide

/-! ## Codes of modes, statuses and responses (rules R21, R62, R181) -/

theorem test_mode_codes : [Mode.uninitialized, .ready, .faulted].map Mode.code = [0, 1, 2] := by decide
/-- The responses of V-S2 and of V-P5. -/
theorem test_response_packet :
    ({ status := .ok, value := 0xE3069283 : Response }).encode = 0xE306928300 ∧
      ({ status := .badRange, value := 0 : Response }).encode = 0x0000000004 := by decide

/-! ## One step on a small state -/

/-- What a result leaves, seen through `f`. -/
def after {α : Type} (r : Result) (f : State → α) : Option α :=
  match r with
  | .next s => some (f s)
  | .fault _ => none
  | .refused _ => none

/-- The response of a command. -/
def answer (r : Result) : Option Response := (after r fun s => s.responses.getLast?).join

/-- A refusal. -/
def refusal (r : Result) : Option Refusal :=
  match r with
  | .next _ => none
  | .fault _ => none
  | .refused q => some q

/-- Bytes at an address, none of them zero, as memory. -/
def bytesAt : Nat → List Byte → Memory
  | _, [] => []
  | a, b :: rest => (a, b) :: bytesAt (a + 1) rest

/-- The text "123456789" of V-S2. -/
def digits : List Byte := [0x31, 0x32, 0x33, 0x34, 0x35, 0x36, 0x37, 0x38, 0x39]

/-- A build with small streams. -/
def small : Config := { block := .b8, word := .w4, long := 8, short := 4, addrW := 16, tableSrc := .built }

/-- An engine in mode `Ready` with its tables at the contents of rule R31, and a memory. -/
def ready (c : Config) (hw : Bool) (m : Memory) : State :=
  { State.resetOf c with
    mode := .ready, hwcap := hw, vt := closedValueTable, lt := closedShiftTable c.long, st := closedShiftTable c.short,
    mem := m }

/-- An engine whose accumulator and pointer are set for one fold. -/
def folding (m : Memory) (crc : Word) (ptr rem : Nat) : State :=
  { ready .standard false m with ctx := { Context.fresh with crc0 := crc, ptr := ptr, rem := rem } }

/-- V-P1, V-D2, V-D4: what the first `INIT` leaves (`VT` is `test_vtBuild`'s, `ST` is `test_shtabBuild`'s). -/
theorem test_init_builds :
    after (exec .init { State.reset with hwcapIn := true })
      (fun s => (s.mode, s.hwcap, entry s.lt 3 0x03)) = some (.ready, true, 0xDB0D1663) := by decide +kernel
/-- V-D17: `INIT` in mode `Faulted`. -/
theorem test_init_faulted :
    answer (exec .init { State.reset with mode := .faulted }) = some { status := .engineFaulted, value := 0 } := by
  decide

/-- V-S2 at address 13, datapath SW. -/
theorem test_append_software :
    answer (exec (.append 0 13 9) (ready .standard false (bytesAt 13 digits))) =
      some { status := .ok, value := 0xE3069283 } := by decide +kernel
/-- V-P2, request 6, datapath HW. -/
theorem test_append_hardware :
    answer (exec (.append 0 0x2003 12) (ready .standard true (bytesAt 0x2003 (digits ++ [0x61, 0x62, 0x63])))) =
      some { status := .ok, value := 0x92A0541A } := by decide +kernel

/-- V-D17: `HWAVAIL` with `HWCAP = 1`. -/
theorem test_hwavail : answer (exec .hwavail (ready small true [])) = some { status := .ok, value := 1 } := by decide
/-- V-D17: `HWAVAIL` in mode `Uninitialized`. -/
theorem test_hwavail_uninitialized :
    after (exec .hwavail State.reset) (fun s => (s.mode, s.fcode)) = some (.faulted, 0x01) := by decide

/-- V-D5: every row of `OP1`. -/
theorem test_matvec :
    after (exec .matvec { State.reset with even := op1Mat, port := { OpPort.fresh with vec := 0xFFFFFFFF } })
      State.result = some 0xFD09C487 := by decide +kernel
/-- V-D5: `MATSQ(OP1)`, rows 0, 1, 2, 31, written to the other buffer. -/
theorem test_matsq :
    after (exec .matsq { State.reset with even := op1Mat })
      (fun s => (matRow s.odd 0, matRow s.odd 1, matRow s.odd 2, matRow s.odd 31, matRow s.even 0)) =
    some (0x417B1DBC, 0x82F63B78, 0x00000001, 0x20000000, 0x82F63B78) := by decide +kernel
/-- V-D5: `OP1`. -/
theorem test_op1bit :
    after (exec .op1bit { State.reset with port := { OpPort.fresh with mat := .odd } })
      (fun s => (matRow s.odd 0, matRow s.odd 1, matRow s.odd 31, matRow s.even 1)) =
    some (0x82F63B78, 0x00000001, 0x40000000, 0x00000000) := by decide +kernel
/-- V-D6: `ZEROS_OP(4)`, rows 0 and 7. -/
theorem test_zerosOp :
    after (exec .zerosOp { State.reset with port := { OpPort.fresh with zeros := 4 } })
      (fun s => (matRow (s.mat s.opMat) 0, matRow (s.mat s.opMat) 7)) = some (0xDD45AAB8, 0x52A0C93F) := by
  decide +kernel
/-- V-D6: `ZEROS_OP(3) = ZEROS_OP(2)`. -/
theorem test_zerosOp_odd_length :
    after (exec .zerosOp { State.reset with port := { OpPort.fresh with zeros := 3 } })
      (fun s => (matRow (s.mat s.opMat) 0, matRow (s.mat s.opMat) 7)) = some (0x13A29877, 0xFBC3FAF9) := by
  decide +kernel
/-- V-D4: two entries of `ST`, from `ZEROS_OP(256)`. -/
theorem test_shtabBuild :
    after (exec (.shtabBuild .short) (State.reset.zerosOp 256)) (fun s => (entry s.st 1 0x80, entry s.st 3 0xFF)) =
      some (0xA7C9C3CA, 0xEC2F1915) := by decide +kernel
/-- V-D16: `SHIFT_APPLY(ST, 0x12345678)`. -/
theorem test_shiftApply :
    after (exec (.shiftApply .short)
      { (State.reset.zerosOp 256).shtabBuild .short with port := { OpPort.fresh with vec := 0x12345678 } })
      State.result = some 0x285C7528 := by decide +kernel
/-- V-D1: entries of row 0. -/
theorem test_vtRow0 :
    after (exec .vtRow0 State.reset) (fun s => (entry s.vt 0 0x01, entry s.vt 0 0x80, entry s.vt 0 0xCE)) =
      some (0xF26B8303, 0x82F63B78, 0x6FF599E3) := by decide +kernel
/-- V-D2: row 1 from row 0. -/
theorem test_vtRowk :
    after (exec .vtRowk { State.reset with vt := vtRow0 State.reset.vt })
      (fun s => (entry s.vt 1 0x01, entry s.vt 1 0xFF)) = some (0x13A29877, 0xA3E32483) := by decide +kernel
/-- V-D2: rows 7 and 15. -/
theorem test_vtBuild :
    after (exec .vtBuild State.reset) (fun s => (entry s.vt 7 0x02, entry s.vt 15 0xFF)) =
      some (0x9278FA4E, 0x8FDA7DFA) := by decide +kernel

/-- V-D15. -/
theorem test_xorF : after (exec .xorF (folding [] 0x1CF96D7C 0 0)) (fun s => s.ctx.crc0) = some 0xE3069283 := by decide
/-- V-D15: the first byte of V-S2. -/
theorem test_byteFold :
    after (exec .byteFold (folding (bytesAt 7 digits) 0xFFFFFFFF 7 9)) (fun s => (s.ctx.crc0, s.ctx.ptr, s.ctx.rem)) =
      some (0x6F0A661C, 8, 8) := by decide +kernel
/-- V-D9: `N = 16`. -/
theorem test_blockFold_16 :
    after (exec (.blockFold .b16) (folding
      (bytesAt 33 [0x01, 0x02, 0x03, 0x04, 0x05, 0x06, 0x07, 0x08, 0x09, 0x0A, 0x0B, 0x0C, 0x0D, 0x0E, 0x0F])
      0xFFFFFFFF 32 16)) (fun s => (s.ctx.crc0, s.ctx.ptr, s.ctx.rem)) = some (0x2636F714, 48, 0) := by decide +kernel
/-- V-D9: `N = 8`. -/
theorem test_blockFold_8 :
    after (exec (.blockFold .b8) (folding (bytesAt 9 [0x01, 0x02, 0x03, 0x04, 0x05, 0x06, 0x07]) 0xFFFFFFFF 8 9))
      (fun s => (s.ctx.crc0, s.ctx.ptr, s.ctx.rem)) = some (0x75D343C4, 16, 1) := by decide +kernel
/-- V-D15: a word of four bytes, into `CRC1`. -/
theorem test_wordStep_4 :
    after (exec (.wordStep .w4) { ready small true (bytesAt 12 digits) with
      ctx := { Context.fresh with crc1 := 0xFFFFFFFF }, port := { OpPort.fresh with acc := .crc1, wordAddr := 12 } })
      (fun s => (s.ctx.crc0, s.ctx.crc1)) = some (0, 0x09C50B11) := by decide +kernel
/-- V-D15: a word of eight bytes. -/
theorem test_wordStep_8 :
    after (exec (.wordStep .w8) { ready small true (bytesAt 16 digits) with
      ctx := { Context.fresh with crc0 := 0xFFFFFFFF }, port := { OpPort.fresh with wordAddr := 16 } })
      (fun s => s.ctx.crc0) = some 0x9F787F65 := by decide +kernel
/-- V-D15, `W = 4`: with `SHORT = 4` each stream is one word. -/
theorem test_stream3 :
    after (exec (.stream3 .short) { ready small true
        [(0, 0x31), (1, 0x32), (2, 0x33), (3, 0x34), (4, 0x01), (11, 0x01)] with
      ctx := { Context.fresh with crc0 := 0xFFFFFFFF, rem := 12 } })
      (fun s => (s.ctx.crc0, s.ctx.crc1, s.ctx.crc2, s.ctx.ptr, s.ctx.rem)) =
    some (0x09C50B11, 0xDD45AAB8, 0xF26B8303, 0, 12) := by decide +kernel
/-- V-D16, the first row of `RECOMBINE`. -/
theorem test_recombine :
    after (exec (.recombine .short) { (State.reset.zerosOp 256).shtabBuild .short with
      ctx := { Context.fresh with crc0 := 0x89E40930, crc1 := 0x1A8F9945, crc2 := 0x6AED7FFB } })
      (fun s => (s.ctx.crc0, s.ctx.crc1)) = some (0x1FA936F2, 0x1A8F9945) := by decide +kernel
/-- Rule R140: no operation of datapath HW with `HWCAP = 0` in mode `Ready`. -/
theorem test_recombine_unitless : refusal (exec (.recombine .long) (ready small false [])) = some .hwUnitAbsent := by
  decide
/-- V-D10: the trace with `crc = 0`, 40 bytes at 13. -/
theorem test_swAppend :
    after (exec .swAppend { ready .standard false (bytesAt 14 ((List.range 39).map fun i => BitVec.ofNat 8 (i + 1))) with
      port := { OpPort.fresh with addr := 13, len := 40 } })
      (fun s => (s.result, s.ctx.ptr, s.ctx.rem, s.ctx.phase)) = some (0x134EF083, 53, 0, .idle) := by decide +kernel
/-- The same buffer on datapath HW (V-P6), in a build with small streams: two long rounds run. -/
theorem test_hwAppend :
    after (exec .hwAppend { ready { small with addrW := 16 } true
        (bytesAt 14 ((List.range 39).map fun i => BitVec.ofNat 8 (i + 1))) with
      port := { OpPort.fresh with addr := 13, len := 40 } })
      (fun s => (s.result, s.ctx.ptr, s.ctx.rem, s.ctx.phase)) = some (0x134EF083, 53, 0, .idle) := by decide +kernel

/-- A table word and the state it is placed in: the step runs it (rows `BYTE_FOLD` and `APPEND`). -/
theorem test_withFetchWord_uop :
    after (step (State.reset.withFetchWord 8 0x20)) (fun s => s.ctx.crc0) = some 0xFFFFFFFF := by decide +kernel
theorem test_withFetchWord_request :
    after (step (State.reset.withFetchWord 168 0x000000000000000900000000000000000000000002)) (fun s => s.mode) =
      some .faulted := by decide +kernel

/-! ## Witnesses: for every obligation with hypotheses, states that meet them all -/

/-- The tables of `ready` are those of rule R31. -/
theorem ready_tablesBuilt (c : Config) (hw : Bool) (m : Memory) : (ready c hw m).TablesBuilt := by
  refine ⟨fun k n h => ?_, fun k n h => ?_, fun k n h => ?_⟩
  · exact entry_tableOf 16 _ k n h
  · exact entry_tableOf 4 _ k n h
  · exact entry_tableOf 4 _ k n h

theorem ready_serving (c : Config) (hw : Bool) (m : Memory) (h : c.wf = true) : (ready c hw m).Serving :=
  ⟨h, rfl, ready_tablesBuilt c hw m⟩

/-- A small engine in mode `Ready` on datapath HW, with text at address 5 and no memory at 40 .. 49. -/
def engine : State := { ready small true (bytesAt 5 digits) with unmapped := [{ base := 40, size := 10 }] }

theorem engine_serving : engine.Serving := ready_serving small true [] (by decide)

/-- The same engine before its `INIT`. -/
def cold : State := { engine with mode := .uninitialized }

/-- The same engine after the fatal fault. -/
def faulted : State := { engine with mode := .faulted, fcode := 0x01 }

/-- An engine whose tables are constants. -/
def embedded : State := State.resetOf { small with tableSrc := .embedded }

theorem witness_IllegalConfigurationIsRefused :
    (State.resetOf { Config.standard with long := 768 }).cfg.wf = false := by decide

theorem witness_DecodeUndoesEncode :
    (Instr.append 0xFFFFFFFF (2 ^ 64 - 1) (2 ^ 64 - 1)).wf .standard = true ∧ (Instr.append 0 0 0).wf .standard = true ∧
      (Instr.recombine .short).wf .standard = true := by decide

theorem witness_EncodeUndoesDecode :
    decode 64 (.uop 0x29) = .ok (.recombine .short) ∧
      0x0000000000000003000000000000200CE306928302 < 2 ^ (40 + 2 * 64) ∧
      decode 64 (.req 0x0000000000000003000000000000200CE306928302) = .ok (.append 0xE3069283 0x200C 3) := by decide

theorem witness_StepRunsTheDecodedInstruction :
    ({ engine with uop := some 0x20 }.cfg.wf = true ∧ decode 16 (.uop 0x20) = .ok .xorF) ∧
      ({ engine with events := [.request 0x03, .reset] }.cfg.wf = true ∧ engine.uop = none ∧
        decode engine.cfg.addrW (.req 0x03) = .ok .hwavail) := by decide

theorem witness_StepWithoutInstruction :
    engine.cfg.wf = true ∧ engine.mem.wf = true ∧ engine.uop = none ∧ engine.events = [] ∧
      { engine with events := [.pin false] }.events = .pin false :: [] ∧
      { engine with events := [.hostWrite (2 ^ 16 - 1) 7] }.events = .hostWrite (2 ^ 16 - 1) 7 :: [] ∧
      2 ^ 16 - 1 < 2 ^ engine.cfg.addrW ∧ 2 ^ engine.cfg.addrW ≤ 2 ^ 16 := by decide

/-- Codes at the edges of the three ranges. -/
theorem witness_ReservedOperationCodeIsRefused :
    engine.cfg.wf = true ∧ (0x0F#8).toNat < 0x10 ∧ 0x2B < (0x2C#8).toNat ∧
      (0x1B ≤ (0x1B#8).toNat ∧ (0x1B#8).toNat ≤ 0x1F) ∧ (0x1B ≤ (0x1F#8).toNat ∧ (0x1F#8).toNat ≤ 0x1F) := by decide

theorem witness_ResetLeavesTheTabledValues : { small with tableSrc := .embedded }.tableSrc = .embedded := by decide

theorem witness_ResetIsTakenInEveryMode :
    ({ faulted with events := [.reset] }.cfg.wf = true ∧ faulted.uop = none) ∧
      ({ embedded with events := [.reset] }.cfg.wf = true ∧ embedded.uop = none ∧
        embedded.cfg.tableSrc = .embedded) := by decide

theorem witness_InvariantAfterReset : small.wf = true ∧ { small with tableSrc := .embedded }.wf = true := by decide

theorem witness_EveryStepKeepsTheInvariant :
    { engine with events := [.request 0x03] }.Inv ∧ ∃ t, step { engine with events := [.request 0x03] } = .next t := by
  refine ⟨⟨by decide, ⟨by decide, by decide⟩, ⟨by decide, fun _ => rfl⟩, rfl, fun _ => ?_⟩, ?_⟩
  · exact ready_tablesBuilt small true []
  · exact ⟨_, rfl⟩

/-- One step of each of the three kinds. -/
theorem witness_ModeMovesOnlyAsTabled :
    after (exec .hwavail engine) State.mode = some .ready ∧ after (exec .init cold) State.mode = some .ready ∧
      after (exec (.append 0 5 9) cold) State.mode = some .faulted ∧
      after (exec .hwavail cold) State.mode = some .faulted := by
  refine ⟨rfl, ?_, rfl, rfl⟩
  rfl

theorem witness_UseBeforeInitIsTheFatalFault : cold.mode = .uninitialized := rfl

theorem witness_FaultedAnswersEveryRequestAlike :
    ({ faulted with events := [.request 0x00] }.cfg.wf = true ∧ faulted.mode = .faulted ∧ faulted.uop = none) ∧
      after (step { faulted with events := [.request 0x01] }) State.mode = some .faulted ∧
      after (step { faulted with events := [.reset] }) State.mode = some .uninitialized := ⟨by decide, rfl, rfl⟩

/-- The two neighbours of the codes in use. -/
theorem witness_ReservedOpIsIllegal :
    { cold with events := [.request 0x04] }.cfg.wf = true ∧ cold.mode ≠ .faulted ∧ engine.mode ≠ .faulted ∧
      cold.uop = none ∧ 0x04 % 256 ≠ 0x01 ∧ 0x04 % 256 ≠ 0x02 ∧ 0x04 % 256 ≠ 0x03 ∧
      0x100 % 256 ≠ 0x01 ∧ 0x100 % 256 ≠ 0x02 ∧ 0x100 % 256 ≠ 0x03 := by decide

/-- One byte past the last legal range. -/
theorem witness_BadRangeIsRefused :
    (engine.mode = .ready ∧ 2 ^ engine.cfg.addrW < 0xFFFF + 2 ∧ ¬2 ^ engine.cfg.addrW < 0xFFFF + 1) ∧
      (Instr.append 0 0xFFFF 0).wf small = true := by decide

/-- `engine`, sent an `APPEND` of nine bytes at 5. -/
def asked : State := { engine with events := [.request 0x000900050000000002] }

theorem asked_decodes : decode asked.cfg.addrW (.req 0x000900050000000002) = .ok (.append 0 5 9) := by decide

theorem witness_EveryRequestGetsOneStatus :
    asked.cfg.wf = true ∧ asked.uop = none ∧ asked.events = .request 0x000900050000000002 :: [] ∧
      ∀ crc addr len, decode asked.cfg.addrW (.req 0x000900050000000002) = .ok (.append crc addr len) →
        asked.mapped addr len = true := by
  refine ⟨by decide, rfl, rfl, fun crc addr len h => ?_⟩
  rw [asked_decodes] at h
  obtain ⟨rfl, rfl, rfl⟩ : 0 = crc ∧ 5 = addr ∧ 9 = len := by simpa using h
  decide

theorem witness_NotOkHasNoPartialEffect :
    Instr.isCommand (.append 0 0xFFFF 2) = true ∧
      ∃ t, exec (.append 0 0xFFFF 2) engine = .next t ∧
        t.responses = engine.responses ++ [{ status := .badRange, value := 0 }] ∧ Status.badRange ≠ .ok :=
  ⟨rfl, _, rfl, rfl, by decide⟩

theorem witness_NoInstructionWritesMemory : ∃ t, exec .byteFold { engine with ctx := { Context.fresh with ptr := 5 } } =
    .next t := ⟨_, rfl⟩

theorem witness_ReadyIsReadOnly : engine.mode = .ready ∧ ∃ t, exec .hwavail engine = .next t := ⟨rfl, _, rfl⟩

theorem witness_InitBuildsTheTables :
    State.reset.cfg.wf = true ∧ State.reset.mode = .uninitialized ∧ State.reset.cfg.tableSrc = .built := by decide

theorem witness_InitWithoutBuild :
    engine.mode = .ready ∧ (embedded.mode = .uninitialized ∧ embedded.cfg.tableSrc = .embedded) ∧
      faulted.mode = .faulted := by decide

theorem witness_HwavailAnswersTheFlag : engine.mode = .ready := rfl

/-- A buffer in the middle of memory, one at the top of the address space, and one of no bytes past the top. -/
theorem witness_AppendReturnsTheCrc :
    engine.Serving ∧ engine.CanRead 5 9 ∧ engine.CanRead 0xFFFF 1 ∧ engine.CanRead 0x10000 0 :=
  ⟨engine_serving, ⟨by decide, by decide⟩, ⟨by decide, by decide⟩, ⟨by decide, by decide⟩⟩

/-- A buffer long enough for a long round between the head and the tail. -/
theorem witness_AppendReadsEachByteOnce : engine.Serving ∧ engine.CanRead 5 30 :=
  ⟨engine_serving, ⟨by decide, by decide⟩⟩

/-- Two engines of different builds, the text at two addresses. -/
theorem witness_AppendIsPathIndependent :
    engine.Serving ∧ (ready .standard false (bytesAt 13 digits)).Serving ∧ engine.CanRead 5 9 ∧
      (ready .standard false (bytesAt 13 digits)).CanRead 13 9 ∧
      engine.mem.bytes 5 9 = (ready .standard false (bytesAt 13 digits)).mem.bytes 13 9 :=
  ⟨engine_serving, ready_serving _ _ _ (by decide), ⟨by decide, by decide⟩, ⟨by decide, by decide⟩, by decide⟩

theorem witness_AppendOfNothingReturnsItsAccumulator :
    engine.cfg.wf = true ∧ engine.mode = .ready ∧ 2 ^ 16 ≤ 2 ^ engine.cfg.addrW := by decide

theorem witness_AppendsChain : engine.Serving ∧ engine.CanRead 5 (4 + 5) :=
  ⟨engine_serving, ⟨by decide, by decide⟩⟩

theorem witness_AppendsMayBeServedInAnyOrder : engine.Serving ∧ engine.CanRead 5 9 ∧ engine.CanRead 50 20 :=
  ⟨engine_serving, ⟨by decide, by decide⟩, ⟨by decide, by decide⟩⟩

theorem witness_CheckValueOfTheSource :
    engine.Serving ∧ engine.CanRead 5 9 ∧
      engine.mem.bytes 5 9 = [0x31, 0x32, 0x33, 0x34, 0x35, 0x36, 0x37, 0x38, 0x39] :=
  ⟨engine_serving, ⟨by decide, by decide⟩, by decide⟩

/-- A buffer that ends in the region's first byte. -/
theorem witness_UnreadableBufferIsRefused :
    engine.Serving ∧ 31 + 10 ≤ engine.cfg.space ∧ engine.mapped 31 10 = false ∧ engine.mapped 30 10 = true :=
  ⟨engine_serving, by decide, by decide, by decide⟩

theorem witness_MatvecSelectsRows : engine.cfg.tableSrc = .built := rfl
theorem witness_MatvecIsLinear : 31 < 32 := by decide
theorem witness_MatsqAppliesTheMapTwice : engine.cfg.tableSrc = .built := rfl
theorem witness_Op1bitIsBitStep : engine.cfg.tableSrc = .built ∧ 1 ≤ 1 ∧ 31 < 32 := ⟨rfl, by decide, by decide⟩

/-- The least length, and a longer one that is a power of two. -/
theorem witness_ZerosOpAppendsZeroBytes :
    (cold.cfg.tableSrc = .built ∧ 1 ≤ cold.port.zeros ∧ cold.port.zeros = 2 ^ 0) ∧
      ({ cold with port := { OpPort.fresh with zeros := 8192 } }.cfg.tableSrc = .built ∧
        1 ≤ { cold with port := { OpPort.fresh with zeros := 8192 } }.port.zeros ∧
        { cold with port := { OpPort.fresh with zeros := 8192 } }.port.zeros = 2 ^ 13) := by decide

theorem witness_ZerosOpOfZeroIsRefused :
    { cold with port := { OpPort.fresh with zeros := 0 } }.cfg.tableSrc = .built ∧
      { cold with port := { OpPort.fresh with zeros := 0 } }.port.zeros = 0 := by decide

theorem witness_ShtabBuildPlacesEveryByte : cold.cfg.tableSrc = .built ∧ cold.mode = .uninitialized := by decide

theorem witness_BuildersStopWhereTheyMayNotRun :
    embedded.cfg.tableSrc = .embedded ∧ engine.cfg.tableSrc = .built ∧ engine.mode ≠ .uninitialized ∧
      faulted.mode ≠ .uninitialized := by decide

/-- The first and the last row of `VT_ROWK`. -/
theorem witness_ValueTableRows :
    (cold.cfg.tableSrc = .built ∧ cold.mode = .uninitialized ∧ cold.port.rowIndex = 1) ∧
      ({ cold with port := { OpPort.fresh with row := 14 } }.cfg.tableSrc = .built ∧
        { cold with port := { OpPort.fresh with row := 14 } }.mode = .uninitialized ∧
        { cold with port := { OpPort.fresh with row := 14 } }.port.rowIndex = 15) := by decide

theorem witness_ValueTableClosedForm : cold.cfg.tableSrc = .built ∧ cold.mode = .uninitialized := by decide
theorem witness_ShiftApplyAppendsZeroBytes : engine.TablesBuilt := engine_serving.2.2

theorem witness_ShortTableIteratedIsTheLongTable : engine.cfg.wf = true ∧ engine.TablesBuilt :=
  ⟨engine_serving.1, engine_serving.2.2⟩

/-- `engine` within a buffer: `PTR` and `REM` as given. -/
def within (ptr rem : Nat) : State := { engine with ctx := { Context.fresh with ptr := ptr, rem := rem } }

/-- `engine` with a word address latched. -/
def wordAt (a : Nat) : State := { engine with port := { OpPort.fresh with wordAddr := a } }

theorem within_tablesBuilt (ptr rem : Nat) : (within ptr rem).TablesBuilt := engine_serving.2.2

theorem wordAt_tablesBuilt (a : Nat) : (wordAt a).TablesBuilt := engine_serving.2.2

/-- The last byte of the address space. -/
theorem witness_ByteFoldFoldsOneByte :
    (within 0xFFFF 1).CanRead (within 0xFFFF 1).ctx.ptr 1 ∧ 1 ≤ (within 0xFFFF 1).ctx.rem ∧
      (within 0xFFFF 1).TablesBuilt :=
  ⟨⟨by decide, by decide⟩, by decide, within_tablesBuilt _ _⟩

/-- A block of each width, the second one the last bytes of the buffer and of the address space. -/
theorem witness_BlockFoldFoldsTheBlock :
    ((within 8 9).CanRead (within 8 9).ctx.ptr BlockWidth.b8.bytes ∧ BlockWidth.b8.bytes ≤ (within 8 9).ctx.rem ∧
        (within 8 9).ctx.ptr % BlockWidth.b8.bytes = 0 ∧ (within 8 9).TablesBuilt) ∧
      ((within 0xFFF0 16).CanRead (within 0xFFF0 16).ctx.ptr BlockWidth.b16.bytes ∧
        BlockWidth.b16.bytes ≤ (within 0xFFF0 16).ctx.rem ∧
        (within 0xFFF0 16).ctx.ptr % BlockWidth.b16.bytes = 0 ∧ (within 0xFFF0 16).TablesBuilt) :=
  ⟨⟨⟨by decide, by decide⟩, by decide, by decide, within_tablesBuilt _ _⟩,
    ⟨by decide, by decide⟩, by decide, by decide, within_tablesBuilt _ _⟩

theorem witness_WordStepFoldsTheWord :
    ((wordAt 12).HwUsable ∧ (wordAt 12).CanRead (wordAt 12).port.wordAddr WordWidth.w4.bytes ∧
        (wordAt 12).port.wordAddr % WordWidth.w4.bytes = 0 ∧ (wordAt 12).TablesBuilt) ∧
      ((wordAt 0xFFF8).HwUsable ∧ (wordAt 0xFFF8).CanRead (wordAt 0xFFF8).port.wordAddr WordWidth.w8.bytes ∧
        (wordAt 0xFFF8).port.wordAddr % WordWidth.w8.bytes = 0 ∧ (wordAt 0xFFF8).TablesBuilt) :=
  ⟨⟨fun _ => rfl, ⟨by decide, by decide⟩, by decide, wordAt_tablesBuilt _⟩,
    fun _ => rfl, ⟨by decide, by decide⟩, by decide, wordAt_tablesBuilt _⟩

/-- Streams of `LONG = 8` bytes, the last at the top of the address space. -/
theorem witness_Stream3FoldsThreeStreams :
    (within 0xFFE8 24).cfg.wf = true ∧ (within 0xFFE8 24).HwUsable ∧
      (within 0xFFE8 24).CanRead (within 0xFFE8 24).ctx.ptr (3 * (within 0xFFE8 24).cfg.streamLen .long) ∧
      (within 0xFFE8 24).ctx.ptr % (within 0xFFE8 24).cfg.word.bytes = 0 :=
  ⟨by decide, fun _ => rfl, ⟨by decide, by decide⟩, by decide⟩

/-- In mode `Ready` with the unit, and in a mode in which the flag has no meaning. -/
theorem witness_RecombineShiftsTwice : (engine.HwUsable ∧ engine.TablesBuilt) ∧ embedded.HwUsable :=
  ⟨⟨fun _ => rfl, engine_serving.2.2⟩, nofun⟩

theorem witness_RoundFoldsItsBytesInOrder :
    (within 8 24).cfg.wf = true ∧ (within 8 24).TablesBuilt ∧ (within 8 24).HwUsable ∧
      (within 8 24).CanRead (within 8 24).ctx.ptr (3 * (within 8 24).cfg.streamLen .long) ∧
      (within 8 24).ctx.ptr % (within 8 24).cfg.word.bytes = 0 :=
  ⟨by decide, within_tablesBuilt _ _, fun _ => rfl, ⟨by decide, by decide⟩, by decide⟩

/-- An engine with nine bytes latched, in a mode in which no `APPEND` is served. -/
def latched : State := { faulted with port := { OpPort.fresh with addr := 5, len := 9 } }

theorem witness_SwAppendReturnsTheCrc :
    latched.cfg.wf = true ∧ latched.TablesBuilt ∧ latched.CanRead latched.port.addr latched.port.len :=
  ⟨engine_serving.1, engine_serving.2.2, ⟨by decide, by decide⟩⟩

theorem witness_HwAppendReturnsTheCrc :
    engine.cfg.wf = true ∧ engine.TablesBuilt ∧ engine.HwUsable ∧ engine.CanRead engine.port.addr engine.port.len :=
  ⟨engine_serving.1, engine_serving.2.2, fun _ => rfl, ⟨by decide, by decide⟩⟩

/-- A turn that stays in its phase and one that goes on. -/
theorem witness_PhasesFollowInOrder :
    after (seqStep { engine with ctx := { Context.fresh with ptr := 5, rem := 9, phase := .swHead } })
        (fun s => s.ctx.phase) = some .swHead ∧
      after (seqStep { engine with ctx := { Context.fresh with ptr := 8, rem := 6, phase := .swHead } })
        (fun s => s.ctx.phase) = some .swBlock := ⟨rfl, rfl⟩

theorem witness_PtrPlusRemIsConstant :
    after (seqStep { engine with ctx := { Context.fresh with ptr := 5, rem := 9, phase := .hwHead } })
      (fun s => (s.ctx.ptr, s.ctx.rem)) = some (6, 8) := rfl

/-- A fold past the end of the buffer, a block that is not aligned and longer than the rest, a word and three streams at
an odd address; and, for the two clauses on a block, one that is aligned and one that `REM` covers. -/
theorem witness_FoldsOutsideTheirPreconditionsComplete :
    ((within 5 0).CanRead (within 5 0).ctx.ptr 1 ∧ (within 5 0).ctx.rem = 0) ∧
      (within 5 3).CanRead (within 5 3).ctx.ptr BlockWidth.b16.bytes ∧
      ((within 16 3).CanRead (within 16 3).ctx.ptr BlockWidth.b16.bytes ∧
        (within 16 3).ctx.ptr % BlockWidth.b16.bytes = 0) ∧
      ((within 5 8).CanRead (within 5 8).ctx.ptr BlockWidth.b8.bytes ∧ BlockWidth.b8.bytes ≤ (within 5 8).ctx.rem) ∧
      ((wordAt 5).HwUsable ∧ (wordAt 5).CanRead (wordAt 5).port.wordAddr WordWidth.w4.bytes ∧
        (wordAt 5).port.wordAddr % WordWidth.w4.bytes ≠ 0) ∧
      ((within 5 24).HwUsable ∧ (within 5 24).CanRead (within 5 24).ctx.ptr (3 * (within 5 24).cfg.streamLen .long) ∧
        (within 5 24).ctx.ptr % (within 5 24).cfg.word.bytes ≠ 0) :=
  ⟨⟨⟨by decide, by decide⟩, rfl⟩, ⟨by decide, by decide⟩, ⟨⟨by decide, by decide⟩, by decide⟩,
    ⟨⟨by decide, by decide⟩, by decide⟩, ⟨fun _ => rfl, ⟨by decide, by decide⟩, by decide⟩,
    fun _ => rfl, ⟨by decide, by decide⟩, by decide⟩

/-- For each of the four operations, the first read that passes the top of the address space and the first that touches
the unmapped region; the unit of datapath HW may be used (`hwUnitAbsent_eq_false`). -/
theorem witness_ReadsThatCannotBeServedStop :
    ((2 ^ 16 : Nat) < (within 0x10000 1).ctx.ptr + 1 ∧ (within 40 1).ctx.ptr + 1 ≤ 2 ^ 16 ∧
        (within 40 1).mapped (within 40 1).ctx.ptr 1 = false) ∧
      ((2 ^ 16 : Nat) < (within 0xFFF9 8).ctx.ptr + BlockWidth.b8.bytes ∧
        (within 33 8).ctx.ptr + BlockWidth.b8.bytes ≤ 2 ^ 16 ∧
        (within 33 8).mapped (within 33 8).ctx.ptr BlockWidth.b8.bytes = false) ∧
      ((wordAt 0xFFFD).hwUnitAbsent = false ∧ (wordAt 37).hwUnitAbsent = false ∧
        (2 ^ 16 : Nat) < (wordAt 0xFFFD).port.wordAddr + WordWidth.w4.bytes ∧
        (wordAt 37).port.wordAddr + WordWidth.w4.bytes ≤ 2 ^ 16 ∧
        (wordAt 37).mapped (wordAt 37).port.wordAddr WordWidth.w4.bytes = false) ∧
      ((within 0xFFE9 24).hwUnitAbsent = false ∧ (within 17 24).hwUnitAbsent = false ∧
        (2 ^ 16 : Nat) < (within 0xFFE9 24).ctx.ptr + 3 * engine.cfg.streamLen .long ∧
        (within 17 24).ctx.ptr + 3 * engine.cfg.streamLen .long ≤ 2 ^ 16 ∧
        (within 17 24).mapped (within 17 24).ctx.ptr (3 * engine.cfg.streamLen .long) = false) ∧
      2 ^ engine.cfg.addrW = 2 ^ 16 := by decide

/-- `engine` without the unit. -/
def unitless : State := { engine with hwcap := false }

/-- The hypotheses of the three clauses; the run inside an `APPEND`, and an `APPEND`, answer. -/
theorem witness_WithoutTheUnitNothingOfHwRuns :
    unitless.mode = .ready ∧ unitless.hwcap = false ∧
      after (runDatapath 0 5 9 { unitless with ctx := .fresh }) (fun t => t.ctx.crc0) = some 0xE3069283 ∧ answer (exec (.append 7 5 0) unitless) =
      some { status := .ok, value := 7 } := by decide +kernel

end Sys2Proof.Tests
end

section
/-!
SUPPORT. The build parameters (00_scope.md rule R9) and the combine law (rule R15).
-/
namespace Sys2Proof.Machine

theorem isPow2_iff {n : Nat} : isPow2 n = true ↔ ∃ i, n = 2 ^ i := by
  rw [isPow2, beq_iff_eq]
  constructor
  · exact fun h => ⟨_, h⟩
  · rintro ⟨i, rfl⟩
    rw [Nat.log2_two_pow]

/-- The legal builds are those that meet the constraints of rule R9. -/
theorem wf_iff (c : Config) :
    c.wf = true ↔
      (∃ i, c.long = 2 ^ i) ∧ (∃ j, c.short = 2 ^ j) ∧ c.short ∣ c.long ∧ c.word.bytes ∣ c.short ∧
        3 * c.long < 2 ^ c.addrW := by
  simp only [Config.wf, Bool.and_eq_true, isPow2_iff, beq_iff_eq, decide_eq_true_eq, Nat.dvd_iff_mod_eq_zero,
    and_assoc]

/-- Both stream lengths of a legal build are powers of two (rule R9 (a)). -/
theorem streamLen_eq_two_pow {c : Config} (h : c.wf = true) (t : TableSel) : ∃ i, c.streamLen t = 2 ^ i := by
  obtain ⟨hlong, hshort, -⟩ := (wf_iff c).mp h
  cases t with
  | long => exact hlong
  | short => exact hshort

theorem streamLen_pos {c : Config} (h : c.wf = true) (t : TableSel) : 0 < c.streamLen t := by
  obtain ⟨i, hi⟩ := streamLen_eq_two_pow h t
  rw [hi]
  exact Nat.two_pow_pos i

theorem blockWidth_pos (n : BlockWidth) : 0 < n.bytes := by cases n <;> decide

theorem wordWidth_pos (w : WordWidth) : 0 < w.bytes := by cases w <;> decide

/-- A step in a build that breaks rule R9 is refused (U7). -/
theorem step_of_not_wf {s : State} (h : s.cfg.wf = false) : step s = .refused .badConfig := by
  simp [step, h]

/-- Settles O1, from the constraints of rule R9 read off `Config.wf`. -/
theorem illegalConfigurationIsRefused : Obligations.IllegalConfigurationIsRefused :=
  ⟨wf_iff, fun _ => step_of_not_wf⟩

/-- The fold of a second buffer, from a state that was complemented on the way out and in again (rule R15). -/
theorem crcOf_append (crc : Word) (a b : List Byte) :
    crcOf crc (a ++ b) = zn (crcOf crc a) b.length ^^^ crcOf 0 b := by
  have hsplit : rawFold (crc ^^^ allOnes) a = crcOf crc a ^^^ allOnes := by simp [crcOf]
  calc crcOf crc (a ++ b)
      = rawFold (crcOf crc a ^^^ allOnes) b ^^^ allOnes := by rw [crcOf, rawFold_append, hsplit]
    _ = zn (crcOf crc a) b.length ^^^ rawFold allOnes b ^^^ allOnes := by rw [rawFold_xor]
    _ = zn (crcOf crc a) b.length ^^^ crcOf 0 b := by
      rw [BitVec.xor_assoc, crcOf.eq_def 0, show (0 : Word) ^^^ allOnes = allOnes from BitVec.zero_xor]

/-- Settles O45: on raw states by the linearity of a fold in its state, on finished CRCs by `crcOf_append`. -/
theorem combineLaw : Obligations.CombineLaw := by
  refine ⟨fun s a b => ?_, fun a b => crcOf_append 0 a b⟩
  rw [rawFold_append, rawFold_from_zero]

end Sys2Proof.Machine
end

section
/-!
SUPPORT. What one turn of the sequencer and one operation of a datapath move (10_state.md rules R25, R26): `PTR`, `REM` and
`PHASE`, whatever the tables hold; and that a run of either datapath ends idle.
-/
namespace Sys2Proof.Machine

@[simp] theorem advance_phase (s : State) (n : Nat) : (s.advance n).ctx.phase = s.ctx.phase := by
  unfold State.advance; split <;> rfl

@[simp] theorem setAligned_ptr (s : State) (acc : AccSel) (a w : Nat) (v : Word) :
    (s.setAligned acc a w v).ctx.ptr = s.ctx.ptr := by
  unfold State.setAligned; split <;> simp

@[simp] theorem setAligned_rem (s : State) (acc : AccSel) (a w : Nat) (v : Word) :
    (s.setAligned acc a w v).ctx.rem = s.ctx.rem := by
  unfold State.setAligned; split <;> simp

@[simp] theorem setAligned_phase (s : State) (acc : AccSel) (a w : Nat) (v : Word) :
    (s.setAligned acc a w v).ctx.phase = s.ctx.phase := by
  unfold State.setAligned; split <;> simp

/-- From `s` to `t` the context goes on by `n` bytes, in the same phase (rule R26). -/
structure Moves (n : Nat) (s t : State) : Prop where
  ptr : t.ctx.ptr = s.ctx.ptr + n
  rem : t.ctx.rem + n = s.ctx.rem
  phase : t.ctx.phase = s.ctx.phase

theorem Moves.trans {m n : Nat} {s t u : State} (h : Moves m s t) (g : Moves n t u) : Moves (m + n) s u := by
  obtain ⟨hp, hr, hph⟩ := h
  obtain ⟨gp, gr, gph⟩ := g
  exact ⟨by omega, by omega, gph.trans hph⟩

/-- `PTR <- PTR + n ; REM <- REM - n`, where `REM >= n`. -/
theorem moves_advance {s : State} {n : Nat} (h : n ≤ s.ctx.rem) : Moves n s (s.advance n) := by
  rw [advance_of_le h]
  exact ⟨rfl, Nat.sub_add_cancel h, rfl⟩

/-- An operation that leaves `PTR`, `REM` and `PHASE` alone, and the move past its bytes. -/
theorem Moves.advance {s u : State} {n : Nat} (h : Moves 0 s u) (hn : n ≤ s.ctx.rem) : Moves n s (u.advance n) := by
  have hrem : u.ctx.rem = s.ctx.rem := h.rem
  simpa using h.trans (moves_advance (hrem ▸ hn))

/-- A `BYTE_FOLD` that is answered (rule R121). -/
theorem byteFold_eq_next {s t : State} :
    byteFold s = .next t ↔ s.CanRead s.ctx.ptr 1 ∧
      t = ({ s with reads := s.reads ++ [(⟨s.ctx.ptr, 1⟩ : Access)] }.setAcc .crc0
        (byteFoldValue s.vt s.ctx.crc0 ((s.mem.bytes s.ctx.ptr 1).headD 0))).advance 1 := by
  simp only [byteFold, withRead_eq_next, Host.Outcome.next.injEq, eq_comm (a := t)]

/-- A `BLOCK_FOLD` that is answered (rule R122). -/
theorem blockFold_eq_next {s t : State} {n : BlockWidth} :
    blockFold n s = .next t ↔ s.CanRead s.ctx.ptr n.bytes ∧
      t = ({ s with reads := s.reads ++ [(⟨s.ctx.ptr, n.bytes⟩ : Access)] }.setAligned .crc0 s.ctx.ptr n.bytes
        (blockFoldValue s.vt n.bytes s.ctx.crc0 (s.mem.bytes s.ctx.ptr n.bytes))).advance n.bytes := by
  simp only [blockFold, withRead_eq_next, Host.Outcome.next.injEq, eq_comm (a := t)]

/-- A `WORD_STEP` that is answered (rule R141). -/
theorem wordStep_eq_next {s t : State} {w : WordWidth} {acc : AccSel} {a : Nat} :
    wordStep w acc a s = .next t ↔ s.CanRead a w.bytes ∧
      t = { s with reads := s.reads ++ [(⟨a, w.bytes⟩ : Access)] }.setAligned acc a w.bytes
        (rawFold (s.ctx.acc acc) (s.mem.bytes a w.bytes)) := by
  simp only [wordStep, withRead_eq_next, Host.Outcome.next.injEq, eq_comm (a := t)]

theorem byteFold_phase {s t : State} (h : byteFold s = .next t) : t.ctx.phase = s.ctx.phase := by
  obtain ⟨-, rfl⟩ := byteFold_eq_next.mp h
  simp

theorem blockFold_phase {s t : State} {n : BlockWidth} (h : blockFold n s = .next t) :
    t.ctx.phase = s.ctx.phase := by
  obtain ⟨-, rfl⟩ := blockFold_eq_next.mp h
  simp

theorem moves_byteFold {s t : State} (h : byteFold s = .next t) (hr : 1 ≤ s.ctx.rem) : Moves 1 s t := by
  obtain ⟨-, rfl⟩ := byteFold_eq_next.mp h
  exact Moves.advance ⟨by simp, by simp, by simp⟩ hr

theorem moves_blockFold {s t : State} {n : BlockWidth} (h : blockFold n s = .next t) (hr : n.bytes ≤ s.ctx.rem) :
    Moves n.bytes s t := by
  obtain ⟨-, rfl⟩ := blockFold_eq_next.mp h
  exact Moves.advance ⟨by simp, by simp, by simp⟩ hr

/-- A `WORD_STEP` moves no register but its accumulator (rule R141). -/
theorem moves_wordStep {s t : State} {w : WordWidth} {acc : AccSel} {a : Nat} (h : wordStep w acc a s = .next t) :
    Moves 0 s t := by
  obtain ⟨-, rfl⟩ := wordStep_eq_next.mp h
  exact ⟨by simp, by simp, by simp⟩

/-- A `STREAM3` moves no register but the accumulators (rule R145). -/
theorem moves_stream3 {s t : State} {b : TableSel} (h : stream3 b s = .next t) : Moves 0 s t := by
  simp only [stream3, withAccess_eq_next] at h
  obtain ⟨-, h⟩ := h
  split at h
  · cases h
    obtain ⟨hp, hr, hph⟩ := streamLoop_frame { s.ctx with crc1 := 0, crc2 := 0 } s.mem s.cfg.word.bytes
      (s.cfg.streamLen b) (s.cfg.streamLen b / s.cfg.word.bytes) 0
    exact ⟨hp, hr, hph⟩
  · cases h
    exact ⟨by simp, by simp, by simp⟩

theorem moves_streamRound {s t : State} {b : TableSel} (h : streamRound b s = .next t)
    (hr : 3 * s.cfg.streamLen b ≤ s.ctx.rem) : Moves (3 * s.cfg.streamLen b) s t := by
  obtain ⟨u, hu, h⟩ := andThen_eq_next.mp h
  cases h
  have hs : Moves 0 s u := moves_stream3 hu
  have hrec : Moves 0 u (u.recombine b) := ⟨rfl, rfl, rfl⟩
  exact (hs.trans hrec).advance hr

theorem moves_wordRound {s t : State} (h : wordRound s = .next t) (hr : s.cfg.word.bytes ≤ s.ctx.rem) :
    Moves s.cfg.word.bytes s t := by
  obtain ⟨u, hu, h⟩ := andThen_eq_next.mp h
  cases h
  exact (moves_wordStep hu).advance hr

/-- From `s` to `t` the sequencer goes to its next phase and moves neither `PTR` nor `REM` (rules R127, R151). -/
structure GoesOn (s t : State) : Prop where
  busy : s.ctx.phase ≠ .idle
  phase : t.ctx.phase = s.ctx.phase.after
  ptr : t.ctx.ptr = s.ctx.ptr
  rem : t.ctx.rem = s.ctx.rem

/-- A turn of a phase that is a loop goes on by the `n` bytes of its body, or goes to the next phase. -/
theorem loopPhase_cases {s t : State} {p : Phase} {test : Bool} {body : State → Result} {n : Nat}
    (h : loopPhase s test body p.after = .next t) (hp : s.ctx.phase = p) (hbusy : p ≠ .idle)
    (hn : s.cfg.wf = true → 0 < n) (hbody : test = true → body s = .next t → Moves n s t) :
    GoesOn s t ∨ ∃ n, (s.cfg.wf = true → 0 < n) ∧ Moves n s t := by
  cases htest : test with
  | false =>
    rw [loopPhase, htest] at h
    cases h
    exact .inl ⟨hp ▸ hbusy, by simp [hp], rfl, rfl⟩
  | true =>
    rw [loopPhase, htest] at h
    exact .inr ⟨n, hn, hbody htest h⟩

/-- What a turn of the sequencer does to `PTR`, `REM` and `PHASE`, in every state: nothing where it is idle, else it goes to
the next phase, or it stays in its phase and moves past some bytes, at least one in a legal build (rules R25, R26). -/
theorem seqStep_cases {s t : State} (h : seqStep s = .next t) :
    (s.ctx.phase = .idle ∧ t = s) ∨ GoesOn s t ∨ ∃ n, (s.cfg.wf = true → 0 < n) ∧ Moves n s t := by
  have hstream : ∀ b, s.cfg.wf = true → 0 < 3 * s.cfg.streamLen b := fun b hwf => by
    have := streamLen_pos hwf b
    omega
  unfold seqStep at h
  cases hp : s.ctx.phase <;> simp only [hp] at h
  case idle =>
    cases h
    exact .inl ⟨rfl, rfl⟩
  case swPre | swPost | hwPre | hwPost =>
    cases h
    exact .inr (.inl ⟨by simp [hp], by simp [hp, Phase.after], rfl, rfl⟩)
  case swHead | hwHead =>
    refine .inr (loopPhase_cases h hp (by decide) (fun _ => Nat.one_pos) fun htest hbody => moves_byteFold hbody ?_)
    simp only [Bool.and_eq_true, decide_eq_true_eq] at htest
    exact htest.1
  case swTail | hwTail =>
    exact .inr (loopPhase_cases h hp (by decide) (fun _ => Nat.one_pos) fun htest hbody =>
      moves_byteFold hbody (of_decide_eq_true htest))
  case swBlock =>
    exact .inr (loopPhase_cases h hp (by decide) (fun _ => blockWidth_pos _) fun htest hbody =>
      moves_blockFold hbody (of_decide_eq_true htest))
  case hwLong =>
    exact .inr (loopPhase_cases h hp (by decide) (hstream .long) fun htest hbody =>
      moves_streamRound hbody (of_decide_eq_true htest))
  case hwShort =>
    exact .inr (loopPhase_cases h hp (by decide) (hstream .short) fun htest hbody =>
      moves_streamRound hbody (of_decide_eq_true htest))
  case hwWords =>
    exact .inr (loopPhase_cases h hp (by decide) (fun _ => wordWidth_pos _) fun htest hbody =>
      moves_wordRound hbody (of_decide_eq_true htest))

theorem rank_after_lt {p : Phase} (h : p ≠ .idle) : p.after.rank < p.rank := by
  cases p with
  | idle => exact absurd rfl h
  | _ => decide

theorem rank_eq_zero {p : Phase} (h : p.rank = 0) : p = .idle := by
  cases p with
  | idle => rfl
  | _ => cases h

/-- Every turn of a legal build comes nearer to the end, whatever the tables hold (rules R127, R151). -/
theorem seqStep_nearer {s t : State} (hwf : s.cfg.wf = true) (hbusy : s.ctx.phase ≠ .idle)
    (h : seqStep s = .next t) : t.ctx.rem + t.ctx.phase.rank < s.ctx.rem + s.ctx.phase.rank := by
  obtain ⟨hidle, -⟩ | ⟨-, hphase, -, hrem⟩ | ⟨n, hn, -, hrem, hphase⟩ := seqStep_cases h
  · exact absurd hidle hbusy
  · have := rank_after_lt hbusy
    rw [hphase, hrem]
    omega
  · have := hn hwf
    rw [hphase]
    omega

/-- A run of a legal build that is answered ends idle, given as many turns as its bytes and phases (rule R25). -/
theorem runSeq_ends_idle {fuel : Nat} : ∀ {s t : State}, s.cfg.wf = true →
    s.ctx.rem + s.ctx.phase.rank ≤ fuel → runSeq fuel s = .next t → t.ctx.phase = .idle := by
  induction fuel with
  | zero =>
    intro s t _ hfuel h
    cases h
    exact rank_eq_zero (by omega)
  | succ fuel ih =>
    intro s t hwf hfuel h
    simp only [runSeq] at h
    split at h
    · cases h
      assumption
    · next hbusy =>
      obtain ⟨u, hu, h⟩ := andThen_eq_next.mp h
      have hcfg : u.cfg = s.cfg := by rw [(onlyRuns_seqStep hu).e]
      have hnearer := seqStep_nearer hwf hbusy hu
      exact ih (hcfg ▸ hwf) (by omega) h

theorem swAppend_ends_idle {s t : State} {crc : Word} {addr len : Nat} (hwf : s.cfg.wf = true)
    (h : swAppend crc addr len s = .next t) : t.ctx.phase = .idle :=
  runSeq_ends_idle (s := s.load crc addr len .swPre) hwf (by simp [Phase.rank]) h

theorem hwAppend_ends_idle {s t : State} {crc : Word} {addr len : Nat} (hwf : s.cfg.wf = true)
    (h : hwAppend crc addr len s = .next t) : t.ctx.phase = .idle :=
  runSeq_ends_idle (s := s.load crc addr len .hwPre) hwf (by simp [Phase.rank]) h

end Sys2Proof.Machine
end

section
/-!
SUPPORT. What an `APPEND` that is served leaves (46_dispatcher.md rules R165, R166; 20_memory.md rules R45 to R47), on either
datapath, and the check value of 00_scope.md rule R8.
-/
namespace Sys2Proof.Machine

theorem whenReady_of_ready {s : State} (h : s.mode = .ready) (k : Result) : whenReady s k = k := by
  simp [whenReady, h]

/-- The datapath that `HWCAP` selects runs to its end: the fold of the buffer stands in `CRC0`, and every byte was read once
(rules R128, R152). -/
theorem runDatapath_completes {s : State} {addr len : Nat} (crc : Word) (hwf : s.cfg.wf = true) (hb : s.TablesBuilt)
    (hc : s.CanRead addr len) :
    ∃ t, runDatapath crc addr len s = .next t ∧ Running s crc addr len s.bulkWidth t ∧ t.ctx.phase = .idle := by
  unfold runDatapath State.bulkWidth
  cases s.hwcap with
  | true => exact runSeq_running hwf hc hb _ _ (running_loadHardware s crc addr len) (by simp [Phase.rank])
  | false => exact runSeq_running hwf hc hb _ _ (running_loadSoftware s crc addr len) (by simp [Phase.rank])

/-- An `APPEND` in a state that can serve, of a buffer that can be read: it answers the CRC (rule R166), and beside the
response it leaves a record of reads that cover the buffer once, each aligned and of a width of its datapath (rules R45 to
R47). -/
theorem execAppend_of_canRead {s : State} {addr len : Nat} (crc : Word) (hs : s.Serving) (hc : s.CanRead addr len) :
    ∃ rs, execAppend crc addr len s = .next { s with
        reads := s.reads ++ rs,
        responses := s.responses ++ [{ status := .ok, value := crcOf crc (s.mem.bytes addr len) }] } ∧
      (accessBytes rs).Perm (List.range' addr len) ∧
      ∀ x ∈ rs, x.addr % x.width = 0 ∧ (x.width = 1 ∨ x.width = s.bulkWidth) := by
  obtain ⟨hwf, hready, hb⟩ := hs
  obtain ⟨t, hrun, ht, hidle⟩ :=
    runDatapath_completes (s := { s with ctx := .fresh }) crc hwf (tablesBuilt_congr hb rfl rfl rfl rfl) hc
  obtain ⟨hcrc, -⟩ := ht.idle hidle
  have hrem : t.ctx.rem = 0 := ht.post (by simp [hidle])
  have hptr : t.ctx.ptr - addr = len := by
    have := ht.tot
    omega
  obtain ⟨c, rs, ht, hperm, haligned⟩ := ht.ex
  have hctx : t.ctx = c := by rw [ht]
  refine ⟨rs, ?_, by rwa [← hctx, hptr] at hperm, haligned⟩
  have hrange : s.inRange addr len = true := decide_eq_true hc.1
  have happend : execAppend crc addr len s = .next ({ t with ctx := s.ctx }.respond .ok t.ctx.crc0) := by
    rw [execAppend, whenReady_of_ready hready, if_pos hrange, hrun, andThen_ok]
  rw [happend, hcrc, ht]
  rfl

/-- The CRC of the bytes of "123456789" (rule R8). -/
theorem crcOf_digits : crcOf 0 [0x31, 0x32, 0x33, 0x34, 0x35, 0x36, 0x37, 0x38, 0x39] = 0xE3069283 := by
  decide +kernel

/-- Settles O31, from what an `APPEND` answers and the check value of the specification function. -/
theorem checkValueOfTheSource : Obligations.CheckValueOfTheSource := by
  intro s addr hs hc hbytes
  obtain ⟨rs, happend, -⟩ := execAppend_of_canRead 0 hs hc
  rw [hbytes, crcOf_digits] at happend
  exact ⟨_, happend, rfl⟩

end Sys2Proof.Machine
end

section
/-!
SUPPORT. The tables hold the closed forms of 10_state.md rule R31 after the builds of `INIT`, and after reset in an embedded
build.
-/
namespace Sys2Proof.Machine

/-- `SHTAB_BUILD` of the operator that `ZEROS_OP` returns for a power of two (rules R95, R102). -/
theorem entry_shtabBuild_zerosOp (s : State) {len : Nat} (hlen : ∃ i, len = 2 ^ i) (k : Nat) (n : Byte) (hk : k < 4) :
    entry (shtabOf ((s.zerosOp len).mat (s.zerosOp len).opMat)) k n = zn (zext n <<< (8 * k)) len := by
  obtain ⟨i, rfl⟩ := hlen
  rw [entry_shtabOf _ _ _ hk, zerosOp_standsFor s _ Nat.one_le_two_pow, Nat.log2_two_pow]

/-- `ZEROS_OP` leaves the tables and the build alone (rule R92). -/
theorem zerosOp_vt (s : State) (len : Nat) : (s.zerosOp len).vt = s.vt := by
  obtain ⟨_, _, _, h⟩ := zerosOp_frame s len
  rw [h]

theorem zerosOp_lt (s : State) (len : Nat) : (s.zerosOp len).lt = s.lt := by
  obtain ⟨_, _, _, h⟩ := zerosOp_frame s len
  rw [h]

/-- The builds of `INIT` leave the closed forms (rules R102, R114, R162). -/
theorem buildTables_tablesBuilt {s : State} (hwf : s.cfg.wf = true) : s.buildTables.TablesBuilt := by
  have hcfg : s.buildTables.cfg = s.cfg := by rw [buildTables_frame]
  have hvt : s.buildTables.vt = vtBuild s.vt := by
    simp [State.buildTables, State.shtabBuild, zerosOp_vt]
  have hlt : s.buildTables.lt = (({ s with vt := vtBuild s.vt }.zerosOp s.cfg.long).shtabBuild .long).lt := by
    rw [State.buildTables]
    exact zerosOp_lt _ _
  refine ⟨fun k n hk => ?_, fun k n hk => ?_, fun k n hk => ?_⟩
  · rw [hvt]
    exact vtBuild_entry s.vt k n hk
  · rw [hlt, hcfg]
    exact entry_shtabBuild_zerosOp _ (streamLen_eq_two_pow hwf .long) k n hk
  · rw [hcfg]
    exact entry_shtabBuild_zerosOp _ (streamLen_eq_two_pow hwf .short) k n hk

/-- The constants of an embedded build, right after reset (rules R31, R33). -/
theorem resetOf_tablesBuilt {c : Config} (h : c.tableSrc = .embedded) : (State.resetOf c).TablesBuilt := by
  refine ⟨fun k n hk => ?_, fun k n hk => ?_, fun k n hk => ?_⟩ <;>
    simp only [State.resetOf, resetValueTable, resetShiftTable, h]
  · exact entry_tableOf 16 _ k n hk
  · exact entry_tableOf 4 _ k n hk
  · exact entry_tableOf 4 _ k n hk

end Sys2Proof.Machine
end

section
/-!
SUPPORT. The invariant of the machine, kept by every instruction and every other thing a step can do.
-/
namespace Sys2Proof.Machine

/-- The invariant does not see the registers of an idle context, nor the record of reads (rules R25, R26). -/
theorem State.Inv.of_onlyRuns {s t : State} (h : s.Inv) (g : OnlyRuns s t) (hidle : t.ctx.phase = .idle) : t.Inv := by
  obtain ⟨hwf, hmem, hfault, -, htables⟩ := h
  rw [g.e]
  exact ⟨hwf, hmem, hfault, hidle, htables⟩

/-- A table is written only where no `APPEND` can read it yet (rules R31, R56). -/
theorem State.Inv.of_tableWrite {s t u : State} (h : s.Inv) (e : withTableWrite s (.next u) = .next t)
    (hu : u = { s with vt := u.vt, lt := u.lt, st := u.st }) : t.Inv := by
  obtain ⟨hwf, hmem, hfault, hidle, -⟩ := h
  obtain ⟨hbuilt, hmode, e⟩ := withTableWrite_eq_next.mp e
  cases e
  rw [hu]
  refine ⟨hwf, hmem, hfault, hidle, ?_⟩
  rintro (hready | hemb)
  · exact absurd (hmode.symm.trans hready) (by decide)
  · exact absurd (hbuilt.symm.trans hemb) (by decide)

/-- An `APPEND` runs in a context of its own and another one is put back. -/
theorem OnlyRuns.withCtx {s t : State} {c c' : Context} (h : OnlyRuns { s with ctx := c } t) :
    OnlyRuns s { t with ctx := c' } :=
  ⟨by rw [h.e]⟩

theorem State.Inv.setMat {s : State} (h : s.Inv) (b : MatSel) (m : Mat) : (s.setMat b m).Inv := by
  cases b with
  | even => exact h
  | odd => exact h

/-- A response changes nothing that the invariant speaks of (rule R62). -/
theorem State.Inv.respond {s : State} (h : s.Inv) (x : Status) (v : Word) : (s.respond x v).Inv := h

/-- The fatal fault sets the mode and the code together (rule R182). -/
theorem State.Inv.raiseFault {s : State} (h : s.Inv) : (s.raiseFault .notInitialized).Inv := by
  obtain ⟨hwf, hmem, -, hidle, htables⟩ := h
  refine ⟨hwf, hmem, ⟨fun _ => rfl, fun hne => absurd rfl hne⟩, hidle, ?_⟩
  rintro (hready | hemb)
  · cases hready
  · exact htables (.inr hemb)

/-- Reset gives the code of its mode and the constants of an embedded build, and keeps the memory (rules R33, R200). -/
theorem State.Inv.takeReset {s : State} (h : s.Inv) : s.takeReset.Inv := by
  obtain ⟨hwf, hmem, -, -, -⟩ := h
  refine ⟨hwf, hmem, ⟨fun hf => (by cases hf), fun _ => rfl⟩, rfl, ?_⟩
  rintro (hready | hemb)
  · cases hready
  · exact resetOf_tablesBuilt (c := s.cfg) hemb

theorem State.Inv.rejectRequest {s : State} (h : s.Inv) : s.rejectRequest.Inv := by
  unfold State.rejectRequest
  split <;> exact h.respond _ _

theorem State.Inv.takeHostWrite {s t : State} {a : Nat} {b : Byte} (h : s.Inv) (e : s.takeHostWrite a b = .next t) :
    t.Inv := by
  obtain ⟨hwf, hmem, hfault, hidle, htables⟩ := h
  obtain ⟨hmem', rfl⟩ := takeHostWrite_memoryOk hmem e
  exact ⟨hwf, hmem', hfault, hidle, htables⟩

/-- Behind the test on `MODE`, the invariant is kept if it is kept in mode `Ready` (rule R164). -/
theorem State.Inv.whenReady {s t : State} {k : Result} (h : s.Inv) (e : whenReady s k = .next t)
    (hk : s.mode = .ready → k = .next t → t.Inv) : t.Inv := by
  obtain ⟨-, hw⟩ | ⟨-, hw⟩ | ⟨hready, hw⟩ := whenReady_cases s k <;> rw [hw] at e
  · cases e
    exact h.respond _ _
  · cases e
    exact h.raiseFault
  · exact hk hready e

/-- The `INIT` that leaves mode `Uninitialized` leaves the tables built in every build (rule R162). -/
theorem State.Inv.initTables_tablesBuilt {s : State} (h : s.Inv) : s.initTables.TablesBuilt := by
  obtain ⟨hwf, -, -, -, htables⟩ := h
  unfold State.initTables
  split
  · exact buildTables_tablesBuilt hwf
  · next hemb => exact htables (.inr hemb)

/-- `INIT` builds nothing but the tables and the matrix buffers (rule R162). -/
theorem initTables_frame (s : State) : ∃ vt lt st even odd opMat, s.initTables =
    { s with vt := vt, lt := lt, st := st, even := even, odd := odd, opMat := opMat } := by
  unfold State.initTables
  split
  · exact ⟨_, _, _, _, _, _, buildTables_frame s⟩
  · exact ⟨_, _, _, _, _, _, rfl⟩

theorem execInit_keeps_inv {s t : State} (h : s.Inv) (e : execInit s = .next t) : t.Inv := by
  unfold execInit at e
  split at e
  · cases e
    exact h.respond _ _
  · cases e
    exact h.respond _ _
  · next hmode =>
    cases e
    have htables := h.initTables_tablesBuilt
    obtain ⟨hwf, hmem, ⟨-, hfcode⟩, hidle, -⟩ := h
    obtain ⟨vt, lt, st, even, odd, opMat, hinit⟩ := initTables_frame s
    rw [hinit] at htables ⊢
    exact ⟨hwf, hmem, ⟨fun hf => (by cases hf), fun _ => hfcode (by simp [hmode])⟩, hidle, fun _ => htables⟩

/-- An `APPEND` closes the context it opened and puts back the one it found (rule R165). -/
theorem execAppend_keeps_inv {s t : State} {crc : Word} {addr len : Nat} (h : s.Inv)
    (e : execAppend crc addr len s = .next t) : t.Inv := by
  have ⟨_, _, _, hidle, _⟩ := h
  refine h.whenReady e fun _ e => ?_
  split at e
  · obtain ⟨u, hrun, e⟩ := andThen_eq_next.mp e
    cases e
    have hu : { u with ctx := s.ctx }.Inv := h.of_onlyRuns (onlyRuns_runDatapath hrun).withCtx hidle
    exact hu.respond _ _
  · cases e
    exact h.respond _ _

/-- Every instruction keeps the invariant, from the port as from a request. -/
theorem exec_keeps_inv {i : Instr} {s t : State} (h : s.Inv) (e : exec i s = .next t) : t.Inv := by
  have ⟨hwf, _, _, hidle, _⟩ := h
  cases i with
  | init => exact execInit_keeps_inv h e
  | append crc addr len => exact execAppend_keeps_inv h e
  | hwavail =>
    refine h.whenReady e fun _ e => ?_
    cases e
    exact h.respond _ _
  | matvec =>
    obtain ⟨-, e⟩ := withBuilder_eq_next.mp e
    cases e
    exact h
  | matsq =>
    obtain ⟨-, e⟩ := withBuilder_eq_next.mp e
    cases e
    exact h.setMat _ _
  | op1bit =>
    obtain ⟨-, e⟩ := withBuilder_eq_next.mp e
    cases e
    exact h.setMat _ _
  | zerosOp =>
    obtain ⟨-, e⟩ := withBuilder_eq_next.mp e
    split at e
    · cases e
    · cases e
      obtain ⟨_, _, _, hframe⟩ := zerosOp_frame s s.port.zeros
      rw [hframe]
      exact h
  | shtabBuild t =>
    refine h.of_tableWrite e ?_
    cases t <;> rfl
  | shiftApply t =>
    cases e
    exact h
  | vtRow0 => exact h.of_tableWrite e rfl
  | vtRowk => exact h.of_tableWrite e rfl
  | vtBuild => exact h.of_tableWrite e rfl
  | xorF =>
    cases e
    exact h.of_onlyRuns ⟨rfl⟩ hidle
  | byteFold => exact h.of_onlyRuns (onlyRuns_byteFold e) ((byteFold_phase e).trans hidle)
  | blockFold n => exact h.of_onlyRuns (onlyRuns_blockFold e) ((blockFold_phase e).trans hidle)
  | wordStep w =>
    obtain ⟨-, e⟩ := withHwUnit_eq_next.mp e
    exact h.of_onlyRuns (onlyRuns_wordStep e) ((moves_wordStep e).phase.trans hidle)
  | stream3 t =>
    obtain ⟨-, e⟩ := withHwUnit_eq_next.mp e
    exact h.of_onlyRuns (onlyRuns_stream3 e) ((moves_stream3 e).phase.trans hidle)
  | recombine t =>
    obtain ⟨-, e⟩ := withHwUnit_eq_next.mp e
    cases e
    exact h.of_onlyRuns ⟨rfl⟩ hidle
  | swAppend =>
    obtain ⟨u, hrun, e⟩ := andThen_eq_next.mp e
    cases e
    have hu : u.Inv := h.of_onlyRuns (onlyRuns_swAppend hrun) (swAppend_ends_idle hwf hrun)
    exact hu
  | hwAppend =>
    obtain ⟨-, e⟩ := withHwUnit_eq_next.mp e
    obtain ⟨u, hrun, e⟩ := andThen_eq_next.mp e
    cases e
    have hu : u.Inv := h.of_onlyRuns (onlyRuns_hwAppend hrun) (hwAppend_ends_idle hwf hrun)
    exact hu

/-- What taking an event off the queue can leave. -/
inductive TakesEvent : Event → State → State → Prop where
  | command {p : Nat} {i : Instr} {s t : State} (hdecode : decode s.cfg.addrW (.req p) = .ok i)
      (hexec : exec i s = .next t) : TakesEvent (.request p) s t
  | reserved {p : Nat} {d : DecodeError} {s : State} (hdecode : decode s.cfg.addrW (.req p) = .error d) :
      TakesEvent (.request p) s s.rejectRequest
  | reset {s : State} : TakesEvent .reset s s.takeReset
  | pin {level : Bool} {s : State} : TakesEvent (.pin level) s { s with hwcapIn := level }
  | hostWrite {a : Nat} {b : Byte} {s t : State} (hwrite : s.takeHostWrite a b = .next t) :
      TakesEvent (.hostWrite a b) s t

/-- What a step that is answered does, and from where: the operation on the port, nothing, or the next event (log entries 5
and 13). -/
theorem step_cases {s t : State} (h : step s = .next t) :
    s.cfg.wf = true ∧
      ((∃ c i, s.uop = some c ∧ decode s.cfg.addrW (.uop c) = .ok i ∧ exec i { s with uop := none } = .next t) ∨
        (s.uop = none ∧ s.events = [] ∧ t = s) ∨
        ∃ e rest, s.uop = none ∧ s.events = e :: rest ∧ TakesEvent e { s with events := rest } t) := by
  unfold step at h
  split at h
  case isFalse => cases h
  case isTrue hwf =>
  refine ⟨hwf, ?_⟩
  unfold fetch at h
  cases huop : s.uop with
  | some c =>
    simp only [huop, fetchUop] at h
    cases hdecode : decode s.cfg.addrW (.uop c) with
    | error d => simp [hdecode] at h
    | ok i =>
      simp only [hdecode] at h
      exact .inl ⟨c, i, rfl, hdecode, h⟩
  | none =>
    simp only [huop] at h
    cases hevents : s.events with
    | nil =>
      simp only [hevents] at h
      cases h
      exact .inr (.inl ⟨rfl, rfl, rfl⟩)
    | cons e rest =>
      simp only [hevents] at h
      refine .inr (.inr ⟨e, rest, rfl, rfl, ?_⟩)
      cases e with
      | request p =>
        simp only [fetchEvent, fetchRequest] at h
        cases hdecode : decode s.cfg.addrW (.req p) with
        | error d =>
          simp only [hdecode] at h
          cases h
          exact .reserved hdecode
        | ok i =>
          simp only [hdecode] at h
          exact .command hdecode h
      | reset =>
        cases h
        exact .reset
      | pin level =>
        cases h
        exact .pin
      | hostWrite a b => exact .hostWrite h

theorem TakesEvent.keeps_inv {e : Event} {s t : State} (h : s.Inv) (g : TakesEvent e s t) : t.Inv := by
  cases g with
  | command _ hexec => exact exec_keeps_inv h hexec
  | reserved => exact h.rejectRequest
  | reset => exact h.takeReset
  | pin => exact h
  | hostWrite hwrite => exact h.takeHostWrite hwrite

/-- Settles O12, by the cases of a step and, for an instruction, of its constructors. -/
theorem everyStepKeepsTheInvariant : Obligations.EveryStepKeepsTheInvariant := by
  intro s t h e
  obtain ⟨-, ⟨c, i, -, -, hexec⟩ | ⟨-, -, rfl⟩ | ⟨_, rest, -, -, htakes⟩⟩ := step_cases e
  · exact exec_keeps_inv (s := { s with uop := none }) h hexec
  · exact h
  · exact TakesEvent.keeps_inv (s := { s with events := rest }) h htakes

end Sys2Proof.Machine
end

section
/-!
SUPPORT. The statements about the state (10_state.md): what reset leaves, where a builder operation may not run, the order of
the phases, and what an instruction may write in mode `Ready`.
-/
namespace Sys2Proof.Machine

/-- Settles O9: the registers by the definition of the reset state, the tables of an embedded build by their constants. -/
theorem resetLeavesTheTabledValues : Obligations.ResetLeavesTheTabledValues :=
  fun _ => ⟨rfl, rfl, rfl, rfl, resetOf_tablesBuilt⟩

/-- The reset state of a legal build has an empty memory, no fault and no open context, and is not in mode `Ready`. -/
theorem resetOf_inv {c : Config} (hwf : c.wf = true) : (State.resetOf c).Inv := by
  refine ⟨hwf, ⟨rfl, fun _ hmem => (nomatch hmem)⟩, ⟨fun hfaulted => (nomatch hfaulted), fun _ => rfl⟩, rfl, ?_⟩
  rintro (hready | hemb)
  · cases hready
  · exact resetOf_tablesBuilt hemb

/-- Settles O11; the default build is a legal one. -/
theorem invariantAfterReset : Obligations.InvariantAfterReset :=
  ⟨resetOf_inv (by decide), fun _ => resetOf_inv⟩

/-- Where the builders do not exist (rule R30). -/
theorem withBuilder_of_embedded {s : State} (h : s.cfg.tableSrc = .embedded) (k : Result) :
    withBuilder s k = .refused .builderAbsent := by
  simp [withBuilder, h]

/-- Once initialisation has completed (rules R31, R54, R56). -/
theorem withTableWrite_of_initialized {s : State} (hbuilt : s.cfg.tableSrc = .built) (hmode : s.mode ≠ .uninitialized)
    (k : Result) : withTableWrite s k = .refused .tablesReadOnly := by
  unfold withTableWrite withBuilder
  cases hm : s.mode with
  | uninitialized => exact absurd hm hmode
  | ready | faulted => simp [hbuilt]

/-- Settles O40: every operation that is named stands behind the test that refuses it. -/
theorem buildersStopWhereTheyMayNotRun : Obligations.BuildersStopWhereTheyMayNotRun := by
  constructor
  · intro s i hemb hi
    simp only [List.mem_cons, List.not_mem_nil, or_false] at hi
    rcases hi with rfl | rfl | rfl | rfl | rfl | rfl | rfl | rfl | rfl <;> exact withBuilder_of_embedded hemb _
  · intro s i hbuilt hmode hi
    simp only [List.mem_cons, List.not_mem_nil, or_false] at hi
    rcases hi with rfl | rfl | rfl | rfl | rfl <;> exact withTableWrite_of_initialized hbuilt hmode _

/-- Settles O55, by what a turn of the sequencer can do. -/
theorem phasesFollowInOrder : Obligations.PhasesFollowInOrder := by
  intro s t h
  obtain ⟨-, rfl⟩ | hgoesOn | ⟨_, -, hmoves⟩ := seqStep_cases h
  · exact .inl rfl
  · exact .inr hgoesOn.phase
  · exact .inl hmoves.phase

/-- Settles O56, by what a turn of the sequencer can do. -/
theorem ptrPlusRemIsConstant : Obligations.PtrPlusRemIsConstant := by
  intro s t h
  obtain ⟨-, rfl⟩ | ⟨-, -, hptr, hrem⟩ | ⟨_, -, hptr, hrem, -⟩ := seqStep_cases h
  · exact ⟨rfl, le_rfl⟩
  · exact ⟨by rw [hptr, hrem], hrem.le⟩
  · omega

/-- From `s` to `t` nothing is written but the working registers, the matrix buffers, the model's own result and count of
free values, and the record of the run. -/
structure OnlyWorks (s t : State) : Prop where
  e : t = { s with
    even := t.even, odd := t.odd, opMat := t.opMat, ctx := t.ctx, result := t.result,
    responses := t.responses, reads := t.reads, freeCount := t.freeCount }

theorem OnlyRuns.onlyWorks {s t : State} (h : OnlyRuns s t) : OnlyWorks s t := ⟨by rw [h.e]⟩

theorem OnlyWorks.respond {s t : State} (h : OnlyWorks s t) (x : Status) (v : Word) : OnlyWorks s (t.respond x v) :=
  ⟨by rw [h.e]; rfl⟩

theorem OnlyWorks.returnCrc0 {s t : State} (h : OnlyWorks s t) : OnlyWorks s t.returnCrc0 := ⟨by rw [h.e]; rfl⟩

theorem onlyWorks_setMat (s : State) (b : MatSel) (m : Mat) : OnlyWorks s (s.setMat b m) := by
  cases b with
  | even => exact ⟨rfl⟩
  | odd => exact ⟨rfl⟩

/-- An `APPEND` in mode `Ready` is answered, and the context it ran in is closed again (rules R164, R165). -/
theorem onlyWorks_execAppend {s t : State} {crc : Word} {addr len : Nat} (hready : s.mode = .ready)
    (h : execAppend crc addr len s = .next t) : OnlyWorks s t := by
  rw [execAppend, whenReady_of_ready hready] at h
  split at h
  · obtain ⟨u, hrun, h⟩ := andThen_eq_next.mp h
    cases h
    exact (onlyRuns_runDatapath hrun).withCtx.onlyWorks.respond _ _
  · cases h
    exact ⟨rfl⟩

/-- What an instruction may write in mode `Ready`: a command answers, an internal operation works on its operands, and an
operation that writes a table is refused (rules R31, R54, R56). -/
theorem exec_onlyWorks_of_ready {i : Instr} {s t : State} (hready : s.mode = .ready) (h : exec i s = .next t) :
    OnlyWorks s t := by
  have no_table_write {k : Result} (h : withTableWrite s k = .next t) : False := by
    obtain ⟨-, hmode, -⟩ := withTableWrite_eq_next.mp h
    exact absurd (hmode.symm.trans hready) (by decide)
  cases i with
  | init =>
    rw [exec, execInit, hready] at h
    cases h
    exact ⟨rfl⟩
  | append crc addr len => exact onlyWorks_execAppend hready h
  | hwavail =>
    rw [exec, execHwavail, whenReady_of_ready hready] at h
    cases h
    exact ⟨rfl⟩
  | matvec =>
    obtain ⟨-, h⟩ := withBuilder_eq_next.mp h
    cases h
    exact ⟨rfl⟩
  | matsq =>
    obtain ⟨-, h⟩ := withBuilder_eq_next.mp h
    cases h
    exact onlyWorks_setMat _ _ _
  | op1bit =>
    obtain ⟨-, h⟩ := withBuilder_eq_next.mp h
    cases h
    exact onlyWorks_setMat _ _ _
  | zerosOp =>
    obtain ⟨-, h⟩ := withBuilder_eq_next.mp h
    split at h
    · cases h
    · cases h
      obtain ⟨_, _, _, hframe⟩ := zerosOp_frame s s.port.zeros
      rw [hframe]
      exact ⟨rfl⟩
  | shtabBuild _ | vtRow0 | vtRowk | vtBuild => exact (no_table_write h).elim
  | shiftApply _ | xorF =>
    cases h
    exact ⟨rfl⟩
  | byteFold => exact (onlyRuns_byteFold h).onlyWorks
  | blockFold n => exact (onlyRuns_blockFold h).onlyWorks
  | wordStep w =>
    obtain ⟨-, h⟩ := withHwUnit_eq_next.mp h
    exact (onlyRuns_wordStep h).onlyWorks
  | stream3 b =>
    obtain ⟨-, h⟩ := withHwUnit_eq_next.mp h
    exact (onlyRuns_stream3 h).onlyWorks
  | recombine b =>
    obtain ⟨-, h⟩ := withHwUnit_eq_next.mp h
    cases h
    exact ⟨rfl⟩
  | swAppend =>
    obtain ⟨u, hrun, h⟩ := andThen_eq_next.mp h
    cases h
    exact (onlyRuns_swAppend hrun).onlyWorks.returnCrc0
  | hwAppend =>
    obtain ⟨-, h⟩ := withHwUnit_eq_next.mp h
    obtain ⟨u, hrun, h⟩ := andThen_eq_next.mp h
    cases h
    exact (onlyRuns_hwAppend hrun).onlyWorks.returnCrc0

/-- Settles O21: none of the registers named is among those that an instruction may write in mode `Ready`. -/
theorem readyIsReadOnly : Obligations.ReadyIsReadOnly := by
  intro i s t hready h
  rw [(exec_onlyWorks_of_ready hready h).e]
  exact ⟨hready, rfl, rfl, rfl, rfl, rfl⟩

end Sys2Proof.Machine
end

section
/-!
SUPPORT. The buffer address space as the operations see it (20_memory.md): what no instruction writes, the reads that cannot be
served, and the reads and the order of `APPEND`s that can.
-/
namespace Sys2Proof.Machine

/-! ## What no instruction writes -/

/-- What is not the block's to write (rules R7, R27, R40, R49), and the model's own queue, port and latches (log entries 5
and 13). -/
def State.outside (s : State) : Memory × Config × List Region × Bool × List Event × Option Byte × OpPort :=
  (s.mem, s.cfg, s.unmapped, s.hwcapIn, s.events, s.uop, s.port)

theorem OnlyRuns.outside_eq {s t : State} (h : OnlyRuns s t) : t.outside = s.outside := by
  rw [h.e]
  rfl

theorem setMat_outside (s : State) (b : MatSel) (m : Mat) : (s.setMat b m).outside = s.outside := by
  cases b <;> rfl

theorem setShiftTable_outside (s : State) (b : TableSel) (m : Table 4) : (s.setShiftTable b m).outside = s.outside := by
  cases b <;> rfl

/-- Behind the test on `MODE` (rule R164) nothing outside is written if the command itself writes nothing there. -/
theorem whenReady_outside {s t : State} {k : Result} (h : whenReady s k = .next t)
    (hk : k = .next t → t.outside = s.outside) : t.outside = s.outside := by
  obtain ⟨-, hw⟩ | ⟨-, hw⟩ | ⟨-, hw⟩ := whenReady_cases s k <;> rw [hw] at h
  · cases h
    rfl
  · cases h
    rfl
  · exact hk h

theorem execInit_outside {s t : State} (h : execInit s = .next t) : t.outside = s.outside := by
  unfold execInit at h
  split at h <;> cases h
  · rfl
  · rfl
  · obtain ⟨_, _, _, _, _, _, hinit⟩ := initTables_frame s
    rw [hinit]
    rfl

theorem execAppend_outside {s t : State} {crc : Word} {addr len : Nat} (h : execAppend crc addr len s = .next t) :
    t.outside = s.outside := by
  refine whenReady_outside h fun h => ?_
  split at h
  · obtain ⟨u, hrun, h⟩ := andThen_eq_next.mp h
    cases h
    have hruns : OnlyRuns s { u with ctx := s.ctx } := (onlyRuns_runDatapath hrun).withCtx
    exact hruns.outside_eq
  · cases h
    rfl

/-- Every instruction, in every mode, from the port as from a request. -/
theorem exec_outside {i : Instr} {s t : State} (h : exec i s = .next t) : t.outside = s.outside := by
  cases i with
  | init => exact execInit_outside h
  | append crc addr len => exact execAppend_outside h
  | hwavail =>
    refine whenReady_outside h fun h => ?_
    cases h
    rfl
  | matvec =>
    obtain ⟨-, h⟩ := withBuilder_eq_next.mp h
    cases h
    rfl
  | matsq | op1bit =>
    obtain ⟨-, h⟩ := withBuilder_eq_next.mp h
    cases h
    exact setMat_outside _ _ _
  | zerosOp =>
    obtain ⟨-, h⟩ := withBuilder_eq_next.mp h
    split at h
    · cases h
    · cases h
      obtain ⟨_, _, _, hframe⟩ := zerosOp_frame s s.port.zeros
      rw [hframe]
      rfl
  | shtabBuild b =>
    obtain ⟨-, -, h⟩ := withTableWrite_eq_next.mp h
    cases h
    exact setShiftTable_outside _ _ _
  | vtRow0 | vtRowk | vtBuild =>
    obtain ⟨-, -, h⟩ := withTableWrite_eq_next.mp h
    cases h
    rfl
  | shiftApply b | xorF =>
    cases h
    rfl
  | byteFold => exact (onlyRuns_byteFold h).outside_eq
  | blockFold n => exact (onlyRuns_blockFold h).outside_eq
  | wordStep w =>
    obtain ⟨-, h⟩ := withHwUnit_eq_next.mp h
    exact (onlyRuns_wordStep h).outside_eq
  | stream3 b =>
    obtain ⟨-, h⟩ := withHwUnit_eq_next.mp h
    exact (onlyRuns_stream3 h).outside_eq
  | recombine b =>
    obtain ⟨-, h⟩ := withHwUnit_eq_next.mp h
    cases h
    rfl
  | swAppend =>
    obtain ⟨u, hrun, h⟩ := andThen_eq_next.mp h
    cases h
    exact (onlyRuns_swAppend hrun).outside_eq
  | hwAppend =>
    obtain ⟨-, h⟩ := withHwUnit_eq_next.mp h
    obtain ⟨u, hrun, h⟩ := andThen_eq_next.mp h
    cases h
    exact (onlyRuns_hwAppend hrun).outside_eq

/-- Settles O20: no instruction writes what is outside the block. -/
theorem noInstructionWritesMemory : Obligations.NoInstructionWritesMemory := by
  intro i s t h
  have houtside := exec_outside h
  simp only [State.outside, Prod.mk.injEq] at houtside
  obtain ⟨hmem, hrest⟩ := houtside
  exact ⟨fun a => by rw [hmem], hmem, hrest⟩

/-! ## Reads that cannot be served -/

@[simp] theorem andThen_refused (q : Refusal) (k : State → Result) : andThen (.refused q) k = .refused q := rfl

/-- A use of the read port on bytes that do not exist (rule R40). -/
theorem withAccess_of_outside {s : State} {a n : Nat} (h : s.cfg.space < a + n) (l : List Access) (k : State → Result) :
    withAccess s a n l k = .fault .outsideAddressSpace := by
  rw [withAccess, if_neg (Nat.not_le.mpr h)]

/-- A use of the read port on bytes that exist and are not all backed by memory (rule R49). -/
theorem withAccess_of_unmapped {s : State} {a n : Nat} (h : a + n ≤ s.cfg.space) (hm : s.mapped a n = false)
    (l : List Access) (k : State → Result) : withAccess s a n l k = .refused .unreadableBuffer := by
  simp [withAccess, h, hm]

/-- The two ways in which a use of the read port stops (log entry 10). -/
theorem withAccess_stops (s : State) (a n : Nat) (l : List Access) (k : State → Result) :
    (2 ^ s.cfg.addrW < a + n → withAccess s a n l k = .fault .outsideAddressSpace) ∧
    (a + n ≤ 2 ^ s.cfg.addrW → s.mapped a n = false → withAccess s a n l k = .refused .unreadableBuffer) :=
  ⟨fun h => withAccess_of_outside h l k, fun h hm => withAccess_of_unmapped h hm l k⟩

theorem withRead_of_unmapped {s : State} {a n : Nat} (h : a + n ≤ s.cfg.space) (hm : s.mapped a n = false)
    (k : List Byte → State → Result) : withRead s a n k = .refused .unreadableBuffer :=
  withAccess_of_unmapped h hm _ _

/-- Settles O58: each of the four operations is one use of the read port, behind the test on the unit in datapath HW. -/
theorem readsThatCannotBeServedStop : Obligations.ReadsThatCannotBeServedStop := by
  rintro s i a n (⟨rfl, rfl, rfl⟩ | ⟨b, rfl, rfl, rfl⟩ | ⟨husable, w, rfl, rfl, rfl⟩ | ⟨husable, t, rfl, rfl, rfl⟩)
  · rw [exec, execByteFold, byteFold, withRead]
    exact withAccess_stops s _ _ _ _
  · rw [exec, execBlockFold, blockFold, withRead]
    exact withAccess_stops s _ _ _ _
  · rw [exec, execWordStep, withHwUnit_of_usable husable, wordStep, withRead]
    exact withAccess_stops s _ _ _ _
  · rw [exec, execStream3, withHwUnit_of_usable husable, stream3]
    exact withAccess_stops s _ _ _ _

/-! ## An `APPEND` of a buffer that is not backed -/

/-- Two backed buffers, the second where the first ends, are one. -/
theorem mapped_append {s : State} {a m n : Nat} (h : s.mapped a m = true) (g : s.mapped (a + m) n = true) :
    s.mapped a (m + n) = true := by
  unfold State.mapped at *
  rw [List.all_eq_true] at *
  intro r hr
  have hfirst := h r hr
  have hsecond := g r hr
  simp only [Region.meets, Bool.not_eq_true', decide_eq_false_iff_not] at *
  omega

/-- A turn of the sequencer that is refused for want of memory, or answered with every byte it moved past backed. -/
def ReadsWhatItPasses (s : State) (r : Result) : Prop :=
  r = .refused .unreadableBuffer ∨ ∃ t, r = .next t ∧ s.mapped s.ctx.ptr (t.ctx.ptr - s.ctx.ptr) = true

/-- A turn that only goes to another phase reads nothing. -/
theorem readsWhatItPasses_of_ptr {s t : State} (h : t.ctx.ptr = s.ctx.ptr) : ReadsWhatItPasses s (.next t) :=
  .inr ⟨t, rfl, by rw [h, Nat.sub_self]; exact mapped_zero _ _⟩

/-- A turn of a phase that is a loop: its body is one use of the read port, on the next `n` of the bytes that `REM` counts,
all inside the address space. -/
theorem loopPhase_readsWhatItPasses {s : State} {test : Bool} {body : State → Result} {after : Phase} {n : Nat}
    (hspace : s.ctx.ptr + s.ctx.rem ≤ s.cfg.space) (hn : test = true → n ≤ s.ctx.rem)
    (hrefused : s.ctx.ptr + n ≤ s.cfg.space → s.mapped s.ctx.ptr n = false → body s = .refused .unreadableBuffer)
    (hanswered : s.CanRead s.ctx.ptr n → ∃ t, body s = .next t)
    (hmoves : n ≤ s.ctx.rem → ∀ t, body s = .next t → Moves n s t) :
    ReadsWhatItPasses s (loopPhase s test body after) := by
  unfold loopPhase
  cases test with
  | false => exact readsWhatItPasses_of_ptr rfl
  | true =>
    have hle : n ≤ s.ctx.rem := hn rfl
    have hbytes : s.ctx.ptr + n ≤ s.cfg.space := by omega
    cases hm : s.mapped s.ctx.ptr n with
    | false => exact .inl (hrefused hbytes hm)
    | true =>
      obtain ⟨t, ht⟩ := hanswered ⟨hbytes, hm⟩
      refine .inr ⟨t, ht, ?_⟩
      rw [(hmoves hle t ht).ptr, Nat.add_sub_cancel_left]
      exact hm

theorem stream3_answered {s : State} {b : TableSel} (h : s.CanRead s.ctx.ptr (3 * s.cfg.streamLen b)) :
    ∃ t, stream3 b s = .next t := by
  unfold stream3
  rw [withAccess_of_canRead h]
  dsimp only
  split <;> exact ⟨_, rfl⟩

theorem loopPhase_byteFold_reads {s : State} {test : Bool} {after : Phase}
    (hspace : s.ctx.ptr + s.ctx.rem ≤ s.cfg.space) (hn : test = true → 1 ≤ s.ctx.rem) :
    ReadsWhatItPasses s (loopPhase s test byteFold after) :=
  loopPhase_readsWhatItPasses hspace hn (fun hle hm => by rw [byteFold, withRead_of_unmapped hle hm])
    (fun hc => ⟨_, byteFold_eq_next.mpr ⟨hc, rfl⟩⟩) fun hle _ ht => moves_byteFold ht hle

theorem loopPhase_blockFold_reads {s : State} {n : BlockWidth} {after : Phase}
    (hspace : s.ctx.ptr + s.ctx.rem ≤ s.cfg.space) :
    ReadsWhatItPasses s (loopPhase s (decide (n.bytes ≤ s.ctx.rem)) (blockFold n) after) :=
  loopPhase_readsWhatItPasses hspace of_decide_eq_true (fun hle hm => by rw [blockFold, withRead_of_unmapped hle hm])
    (fun hc => ⟨_, blockFold_eq_next.mpr ⟨hc, rfl⟩⟩) fun hle _ ht => moves_blockFold ht hle

theorem loopPhase_wordRound_reads {s : State} {after : Phase} (hspace : s.ctx.ptr + s.ctx.rem ≤ s.cfg.space) :
    ReadsWhatItPasses s (loopPhase s (decide (s.cfg.word.bytes ≤ s.ctx.rem)) wordRound after) := by
  refine loopPhase_readsWhatItPasses hspace of_decide_eq_true (fun hle hm => ?_) (fun hc => ?_)
    fun hle _ ht => moves_wordRound ht hle
  · rw [wordRound, wordStep, withRead_of_unmapped hle hm, andThen_refused]
  · rw [wordRound, wordStep_eq_next.mpr ⟨hc, rfl⟩, andThen_ok]
    exact ⟨_, rfl⟩

theorem loopPhase_streamRound_reads {s : State} {b : TableSel} {after : Phase}
    (hspace : s.ctx.ptr + s.ctx.rem ≤ s.cfg.space) :
    ReadsWhatItPasses s (loopPhase s (decide (3 * s.cfg.streamLen b ≤ s.ctx.rem)) (streamRound b) after) := by
  refine loopPhase_readsWhatItPasses hspace of_decide_eq_true (fun hle hm => ?_) (fun hc => ?_)
    fun hle _ ht => moves_streamRound ht hle
  · rw [streamRound, stream3, withAccess_of_unmapped hle hm, andThen_refused]
  · obtain ⟨u, hu⟩ := stream3_answered hc
    rw [streamRound, hu, andThen_ok]
    exact ⟨_, rfl⟩

/-- Inside the address space the one way for a turn to stop is the refusal of a byte that is not backed (rules R43, R49). -/
theorem seqStep_readsWhatItPasses {s : State} (hspace : s.ctx.ptr + s.ctx.rem ≤ s.cfg.space) :
    ReadsWhatItPasses s (seqStep s) := by
  have hhead {b : Bool} (h : (decide (0 < s.ctx.rem) && b) = true) : 1 ≤ s.ctx.rem :=
    of_decide_eq_true (Bool.and_eq_true_iff.mp h).1
  unfold seqStep
  cases s.ctx.phase with
  | idle | swPre | swPost | hwPre | hwPost => exact readsWhatItPasses_of_ptr rfl
  | swHead | hwHead => exact loopPhase_byteFold_reads hspace hhead
  | swTail | hwTail => exact loopPhase_byteFold_reads hspace of_decide_eq_true
  | swBlock => exact loopPhase_blockFold_reads hspace
  | hwLong => exact loopPhase_streamRound_reads (b := .long) hspace
  | hwShort => exact loopPhase_streamRound_reads (b := .short) hspace
  | hwWords => exact loopPhase_wordRound_reads hspace

/-- The phases after the last read of a run. -/
def Phase.IsLast (p : Phase) : Prop := p = .swPost ∨ p = .hwPost ∨ p = .idle

/-- A tail phase is left with no byte to read (rules R126, R149). -/
theorem rem_eq_zero_of_tail {s t : State} (h : seqStep s = .next t) (hp : s.ctx.phase = .swTail ∨ s.ctx.phase = .hwTail)
    (hlast : t.ctx.phase.IsLast) : s.ctx.rem = 0 := by
  by_contra hne
  have hfold : byteFold s = .next t := by
    rcases hp with hp | hp <;> simpa [seqStep, hp, loopPhase, Nat.pos_of_ne_zero hne] using h
  rw [byteFold_phase hfold] at hlast
  rcases hp with hp | hp <;> simp [Phase.IsLast, hp] at hlast

/-- A turn into one of the last phases leaves no byte to read, if a turn from one of them finds none. -/
theorem seqStep_last {s t : State} (h : seqStep s = .next t) (hs : s.ctx.phase.IsLast → s.ctx.rem = 0)
    (hlast : t.ctx.phase.IsLast) : t.ctx.rem = 0 := by
  obtain ⟨-, rfl⟩ | ⟨hbusy, hphase, -, hrem⟩ | ⟨n, -, -, hrem, hphase⟩ := seqStep_cases h
  · exact hs hlast
  · rw [hrem]
    have hafter : s.ctx.phase.after.IsLast := hphase ▸ hlast
    cases hp : s.ctx.phase with
    | swTail => exact rem_eq_zero_of_tail h (.inl hp) hlast
    | hwTail => exact rem_eq_zero_of_tail h (.inr hp) hlast
    | idle => exact absurd hp hbusy
    | swPost | hwPost => exact hs (by simp [Phase.IsLast, hp])
    | _ => simp [hp, Phase.after, Phase.IsLast] at hafter
  · have := hs (hphase ▸ hlast)
    omega

/-- A run over the buffer `addr .. addr + len - 1`, begun in `s₀`, of which every byte before `PTR` is backed by memory. -/
structure Crossing (s₀ : State) (addr len : Nat) (s : State) : Prop where
  runs : OnlyRuns s₀ s
  low : addr ≤ s.ctx.ptr
  total : s.ctx.ptr + s.ctx.rem = addr + len
  backed : s₀.mapped addr (s.ctx.ptr - addr) = true
  last : s.ctx.phase.IsLast → s.ctx.rem = 0

theorem Crossing.seqStep {s₀ s t : State} {addr len : Nat} (h : Crossing s₀ addr len s) (ht : seqStep s = .next t)
    (hreads : s.mapped s.ctx.ptr (t.ctx.ptr - s.ctx.ptr) = true) : Crossing s₀ addr len t := by
  obtain ⟨hruns, hlow, htotal, hbacked, hlast⟩ := h
  obtain ⟨hconst, hrem⟩ := ptrPlusRemIsConstant s t ht
  have hunmapped : s.unmapped = s₀.unmapped := by rw [hruns.e]
  have hreads : s₀.mapped (addr + (s.ctx.ptr - addr)) (t.ctx.ptr - s.ctx.ptr) = true := by
    rw [Nat.add_sub_cancel' hlow]
    simpa only [State.mapped, hunmapped] using hreads
  refine ⟨hruns.trans (onlyRuns_seqStep ht), by omega, by omega, ?_, seqStep_last ht hlast⟩
  rw [show t.ctx.ptr - addr = s.ctx.ptr - addr + (t.ctx.ptr - s.ctx.ptr) by omega]
  exact mapped_append hbacked hreads

/-- A run that ended idle crossed the whole buffer. -/
theorem Crossing.mapped_of_idle {s₀ s : State} {addr len : Nat} (h : Crossing s₀ addr len s)
    (hidle : s.ctx.phase = .idle) : s₀.mapped addr len = true := by
  have hrem : s.ctx.rem = 0 := h.last (.inr (.inr hidle))
  have hlen : s.ctx.ptr - addr = len := by
    have := h.total
    omega
  exact hlen ▸ h.backed

/-- The start of a run of either datapath. -/
theorem crossing_load (s : State) (crc : Word) (addr len : Nat) {p : Phase} (hp : ¬ p.IsLast) :
    Crossing s addr len (s.load crc addr len p) where
  runs := ⟨rfl⟩
  low := le_rfl
  total := rfl
  backed := by
    rw [load_ctx, Nat.sub_self]
    exact mapped_zero s addr
  last := fun hlast => absurd hlast hp

/-- A run over a buffer of which some byte is not backed comes to that byte and is refused there (rule R49). -/
theorem runSeq_of_unmapped {s₀ : State} {addr len : Nat} (hwf : s₀.cfg.wf = true) (hspace : addr + len ≤ s₀.cfg.space)
    (hm : s₀.mapped addr len = false) {fuel : Nat} : ∀ {s : State}, Crossing s₀ addr len s →
      s.ctx.rem + s.ctx.phase.rank ≤ fuel → runSeq fuel s = .refused .unreadableBuffer := by
  have hnot_idle {s : State} (h : Crossing s₀ addr len s) : s.ctx.phase ≠ .idle := fun hidle => by
    rw [h.mapped_of_idle hidle] at hm
    cases hm
  induction fuel with
  | zero => exact fun h hfuel => absurd (rank_eq_zero (by omega)) (hnot_idle h)
  | succ fuel ih =>
    intro s h hfuel
    have hcfg : s.cfg = s₀.cfg := by rw [h.runs.e]
    rw [runSeq, if_neg (hnot_idle h)]
    obtain hrefused | ⟨t, ht, hreads⟩ := seqStep_readsWhatItPasses (s := s) (by rw [h.total, hcfg]; exact hspace)
    · rw [hrefused, andThen_refused]
    · have hnearer := seqStep_nearer (hcfg ▸ hwf) (hnot_idle h) ht
      rw [ht, andThen_ok]
      exact ih (h.seqStep ht hreads) (by omega)

/-- On the datapath that `HWCAP` selects (rule R165). -/
theorem runDatapath_of_unmapped {s : State} (crc : Word) {addr len : Nat} (hwf : s.cfg.wf = true)
    (hspace : addr + len ≤ s.cfg.space) (hm : s.mapped addr len = false) :
    runDatapath crc addr len s = .refused .unreadableBuffer := by
  unfold runDatapath
  split
  · exact runSeq_of_unmapped hwf hspace hm (crossing_load s crc addr len (p := .hwPre) (by simp [Phase.IsLast]))
      (by simp [Phase.rank])
  · exact runSeq_of_unmapped hwf hspace hm (crossing_load s crc addr len (p := .swPre) (by simp [Phase.IsLast]))
      (by simp [Phase.rank])

/-- Settles O32, by the run of either datapath over a buffer that is not backed. -/
theorem unreadableBufferIsRefused : Obligations.UnreadableBufferIsRefused := by
  rintro s crc addr len ⟨hwf, hready, -⟩ hspace hm
  have hrange : s.inRange addr len = true := decide_eq_true hspace
  rw [exec, execAppend, whenReady_of_ready hready, if_pos hrange,
    runDatapath_of_unmapped (s := { s with ctx := .fresh }) crc hwf hspace hm, andThen_refused]

/-! ## `APPEND`s of buffers that can be read -/

/-- Settles O26, from the reads that an `APPEND` leaves on record. -/
theorem appendReadsEachByteOnce : Obligations.AppendReadsEachByteOnce := by
  intro s crc addr len hs hc
  obtain ⟨rs, happend, hperm, haligned⟩ := execAppend_of_canRead crc hs hc
  exact ⟨_, rs, happend, rfl, hperm, haligned⟩

/-- What an `APPEND` that is served leaves to the next one: its response, and the memory, the tables and the mode as they
were (rules R44, R54). -/
theorem append_serves {s : State} (crc : Word) {addr len : Nat} (hs : s.Serving) (hc : s.CanRead addr len) :
    ∃ t, exec (.append crc addr len) s = .next t ∧ t.Serving ∧ (∀ a n, s.CanRead a n → t.CanRead a n) ∧
      t.mem = s.mem ∧ t.responses = s.responses ++ [⟨.ok, crcOf crc (s.mem.bytes addr len)⟩] := by
  obtain ⟨_, happend, -⟩ := execAppend_of_canRead crc hs hc
  exact ⟨_, happend, hs, fun _ _ h => h, rfl, rfl⟩

/-- Two `APPEND`s, one after the other: each answers the CRC of its own buffer. -/
theorem append_append_responses {s : State} (crc₁ crc₂ : Word) {addr₁ len₁ addr₂ len₂ : Nat} (hs : s.Serving)
    (h₁ : s.CanRead addr₁ len₁) (h₂ : s.CanRead addr₂ len₂) :
    ∃ t, andThen (exec (.append crc₁ addr₁ len₁) s) (exec (.append crc₂ addr₂ len₂)) = .next t ∧
      t.responses = s.responses ++
        [⟨.ok, crcOf crc₁ (s.mem.bytes addr₁ len₁)⟩, ⟨.ok, crcOf crc₂ (s.mem.bytes addr₂ len₂)⟩] := by
  obtain ⟨t, hfirst, ht, hread, hmem, hresponse₁⟩ := append_serves crc₁ hs h₁
  obtain ⟨u, hsecond, -, -, -, hresponse₂⟩ := append_serves crc₂ ht (hread _ _ h₂)
  refine ⟨u, by rw [hfirst, andThen_ok, hsecond], ?_⟩
  rw [hresponse₂, hresponse₁, hmem, List.append_assoc]
  rfl

/-- Settles O30, by the responses of two `APPEND`s in sequence, taken in both orders. -/
theorem appendsMayBeServedInAnyOrder : Obligations.AppendsMayBeServedInAnyOrder := by
  intro s crc₁ crc₂ addr₁ len₁ addr₂ len₂ hs h₁ h₂
  obtain ⟨t, ht, hresponses⟩ := append_append_responses crc₁ crc₂ hs h₁ h₂
  obtain ⟨u, hu, hresponses'⟩ := append_append_responses crc₂ crc₁ hs h₂ h₁
  exact ⟨t, u, _, _, ht, hu, hresponses, hresponses', rfl, rfl⟩

end Sys2Proof.Machine
end

section
/-!
SUPPORT. The request packet (30_encoding.md rules R61, R63, R65): its four fields, each put at its place and read from there.
-/
namespace Sys2Proof

theorem packetBits_zero (p n : Nat) : packetBits p 0 n = p % 2 ^ n := by
  rw [packetBits, Nat.pow_zero, Nat.div_one]

/-- A field is read below what is put above it. -/
theorem packetBits_add_mul_of_le {lo n k : Nat} (h : lo + n ≤ k) (x y : Nat) :
    packetBits (x + y * 2 ^ k) lo n = packetBits x lo n := by
  obtain ⟨m, rfl⟩ := Nat.exists_eq_add_of_le h
  have hplace : y * 2 ^ (lo + n + m) = y * 2 ^ m * 2 ^ n * 2 ^ lo := by ring
  rw [hplace, packetBits, Nat.add_mul_div_right _ _ (Nat.two_pow_pos lo), Nat.add_mul_mod_self_right]

/-- A field that fits is read at the place where it is put. -/
theorem packetBits_add_mul_self {x y k n : Nat} (hx : x < 2 ^ k) (hy : y < 2 ^ n) :
    packetBits (x + y * 2 ^ k) k n = y := by
  rw [packetBits, Nat.add_mul_div_right _ _ (Nat.two_pow_pos k), Nat.div_eq_of_lt hx, Nat.zero_add,
    Nat.mod_eq_of_lt hy]

/-- A field is what it adds to the bits below it. -/
theorem mod_two_pow_add (p lo n : Nat) : p % 2 ^ (lo + n) = p % 2 ^ lo + packetBits p lo n * 2 ^ lo := by
  rw [pow_add, Nat.mod_mul, Nat.mul_comm]

/-- A packet of `40 + 2 × aw` bits is the sum of its fields, each at its place (rule R61). -/
theorem packet_eq_fields {aw p : Nat} (hp : p < 2 ^ (40 + 2 * aw)) :
    p = packetBits p 0 8 + packetBits p 8 32 * 2 ^ 8 + packetBits p 40 aw * 2 ^ 40 +
      packetBits p (40 + aw) aw * 2 ^ (40 + aw) := by
  rw [two_mul, ← Nat.add_assoc] at hp
  calc p = p % 2 ^ (40 + aw + aw) := (Nat.mod_eq_of_lt hp).symm
    _ = p % 2 ^ 40 + packetBits p 40 aw * 2 ^ 40 + packetBits p (40 + aw) aw * 2 ^ (40 + aw) := by
      rw [mod_two_pow_add p (40 + aw), mod_two_pow_add p 40]
    _ = _ := by rw [mod_two_pow_add p 8 32, packetBits_zero]

/-- The low byte of a packet decides between the three commands (rule R63). -/
theorem decodeReq_eq_init_iff {aw p : Nat} : decodeReq aw p = .ok .init ↔ packetBits p 0 8 = 1 := by
  unfold decodeReq
  split_ifs <;> simp [*]

theorem decodeReq_eq_hwavail_iff {aw p : Nat} : decodeReq aw p = .ok .hwavail ↔ packetBits p 0 8 = 3 := by
  unfold decodeReq
  split_ifs <;> simp [*]

theorem decodeReq_eq_append_iff {aw p : Nat} {crc : Word} {addr len : Nat} :
    decodeReq aw p = .ok (.append crc addr len) ↔
      packetBits p 0 8 = 2 ∧ BitVec.ofNat 32 (packetBits p 8 32) = crc ∧ packetBits p 40 aw = addr ∧
        packetBits p (40 + aw) aw = len := by
  unfold decodeReq
  split_ifs <;> simp [*]

/-- The encoder's `APPEND` is read back, if `addr` and `len` are numbers of `aw` bits (rule R65). -/
theorem decode_encode_append {aw addr len : Nat} (crc : Word) (haddr : addr < 2 ^ aw) (hlen : len < 2 ^ aw) :
    decode aw (encode aw (.append crc addr len)) = .ok (.append crc addr len) := by
  have hcrc : crc.toNat < 2 ^ 32 := crc.isLt
  have hbelowAddr : 2 + crc.toNat * 2 ^ 8 < 2 ^ 40 := by omega
  have hbelowLen : 2 + crc.toNat * 2 ^ 8 + addr * 2 ^ 40 < 2 ^ (40 + aw) := by
    rw [pow_add]
    omega
  refine decodeReq_eq_append_iff.mpr ⟨?_, ?_, ?_, ?_⟩
  · rw [packetBits_add_mul_of_le (by omega), packetBits_add_mul_of_le (by omega),
      packetBits_add_mul_of_le (by omega)]
    rfl
  · rw [packetBits_add_mul_of_le (by omega), packetBits_add_mul_of_le (by omega),
      packetBits_add_mul_self (by decide) hcrc, BitVec.ofNat_toNat, BitVec.setWidth_eq]
  · rw [packetBits_add_mul_of_le le_rfl, packetBits_add_mul_self hbelowAddr haddr]
  · rw [packetBits_add_mul_self hbelowLen hlen]

/-- A packet that is read as an `APPEND` is the encoder's (rules R61, R63). -/
theorem encode_of_decodeReq_append {aw p : Nat} {crc : Word} {addr len : Nat} (hp : p < 2 ^ (40 + 2 * aw))
    (h : decodeReq aw p = .ok (.append crc addr len)) : encode aw (.append crc addr len) = .req p := by
  obtain ⟨hop, rfl, rfl, rfl⟩ := decodeReq_eq_append_iff.mp h
  have hcrc : (BitVec.ofNat 32 (packetBits p 8 32)).toNat = packetBits p 8 32 :=
    Nat.mod_eq_of_lt (Nat.mod_lt _ (Nat.two_pow_pos 32))
  have hfields := packet_eq_fields hp
  rw [hop] at hfields
  rw [encode, hcrc, ← hfields]

end Sys2Proof
end

section
/-!
SUPPORT. The operation codes (30_encoding.md rule R64): the codes of a row of the table, and what the encoder writes for them.
-/
namespace Sys2Proof

/-- The code of a row with the value `b` of its one-bit field, where it has one. -/
def UopRow.code (r : UopRow) (b : Bool) : Byte := r.pattern ||| ((BitVec.ofBool b).setWidth 8 &&& ~~~r.mask)

/-- A row has no select bit, or its select bit is bit 0. -/
theorem uopRows_mask : ∀ r ∈ uopRows, 1#8 &&& ~~~r.mask = ~~~r.mask := by decide

/-- A code that a row covers is the row's code with the code's own select bit. -/
theorem UopRow.eq_code_of_covers {r : UopRow} (hr : r ∈ uopRows) {c : Byte} (h : r.covers c = true) :
    c = r.code (c.getLsbD 0) := by
  have hpattern : c &&& r.mask = r.pattern := eq_of_beq h
  calc c = c &&& r.mask ||| c &&& ~~~r.mask := by
        rw [← BitVec.and_or_distrib_left, BitVec.or_not_self, BitVec.and_allOnes]
    _ = r.pattern ||| ((c &&& 1#8) &&& ~~~r.mask) := by
        rw [hpattern, BitVec.and_assoc, uopRows_mask r hr]
    _ = r.code (c.getLsbD 0) := by rw [BitVec.and_one_eq_setWidth_ofBool_getLsbD, UopRow.code]

/-- A code is a row's and stands for that row's operation, or it is reserved. -/
theorem decodeUop_cases (c : Byte) :
    (∃ r ∈ uopRows, ∃ b, c = r.code b ∧ decodeUop c = .ok (r.op b)) ∨ decodeUop c = .error (.reservedUop c) := by
  unfold decodeUop
  cases hfind : uopRows.find? (fun r => r.covers c) with
  | some r =>
    have hr : r ∈ uopRows := List.mem_of_find?_eq_some hfind
    have hcovers : r.covers c = true := List.find?_some (p := fun r : UopRow => r.covers c) hfind
    exact .inl ⟨r, hr, _, r.eq_code_of_covers hr hcovers, rfl⟩
  | none => exact .inr rfl

/-- The encoder writes the code of the operation's row. -/
theorem encode_uopRow_op (aw : Nat) : ∀ r ∈ uopRows, ∀ b, encode aw (r.op b) = .uop (r.code b) := by
  simp [uopRows, UopRow.code, encode, TableSel.ofBit, BlockWidth.ofBit, WordWidth.ofBit, TableSel.bit, BlockWidth.bit,
    WordWidth.bit]

/-- An internal operation is read back from the code that the encoder writes. -/
theorem decode_encode_internal (aw : Nat) {i : Instr} (h : i.isCommand = false) : decode aw (encode aw i) = .ok i := by
  cases i with
  | init | append | hwavail => cases h
  | shtabBuild t | shiftApply t | stream3 t | recombine t => cases t <;> rfl
  | blockFold n => cases n <;> rfl
  | wordStep w => cases w <;> rfl
  | matvec | matsq | op1bit | zerosOp | vtRow0 | vtRowk | vtBuild | xorF | byteFold | swAppend | hwAppend => rfl

/-- The codes that rule R64 leaves unassigned. -/
def ReservedCode (c : Byte) : Prop := c.toNat < 0x10 ∨ 0x2B < c.toNat ∨ (0x1B ≤ c.toNat ∧ c.toNat ≤ 0x1F)

/-- No row of the table has a reserved code. -/
theorem not_reservedCode_of_mem : ∀ r ∈ uopRows, ∀ b, ¬ ReservedCode (r.code b) := by
  unfold ReservedCode
  decide

theorem decodeUop_of_reservedCode {c : Byte} (h : ReservedCode c) : decodeUop c = .error (.reservedUop c) := by
  obtain ⟨r, hr, b, rfl, -⟩ | herror := decodeUop_cases c
  · exact absurd h (not_reservedCode_of_mem r hr b)
  · exact herror

/-- Settles O2: a command by the fields of its packet, an internal operation by the code of its constructor. -/
theorem decodeUndoesEncode : Obligations.DecodeUndoesEncode := by
  intro c i hwf
  cases i with
  | init | hwavail => rfl
  | append crc addr len =>
    obtain ⟨haddr, hlen⟩ : addr < 2 ^ c.addrW ∧ len < 2 ^ c.addrW := by simpa [Instr.wf] using hwf
    exact decode_encode_append crc haddr hlen
  | _ => exact decode_encode_internal c.addrW rfl

/-- Settles O3: an operation code by the row that covers it, a packet by its fields. -/
theorem encodeUndoesDecode : Obligations.EncodeUndoesDecode := by
  refine ⟨fun aw c i h => ?_, fun aw p crc addr len => encode_of_decodeReq_append, fun aw p => ?_, fun aw p => ?_⟩
  · rw [decode] at h
    obtain ⟨r, hr, b, rfl, hok⟩ | herror := decodeUop_cases c
    · obtain rfl : r.op b = i := Except.ok.inj (hok.symm.trans h)
      exact encode_uopRow_op aw r hr b
    · cases herror.symm.trans h
  · exact packetBits_zero p 8 ▸ decodeReq_eq_init_iff
  · exact packetBits_zero p 8 ▸ decodeReq_eq_hwavail_iff

/-- Settles O4: each code is a literal, and the decoder runs on it. -/
theorem writtenCodesDecode : Obligations.WrittenCodesDecode := by
  unfold Obligations.WrittenCodesDecode
  decide

end Sys2Proof
end

section
/-!
SUPPORT. A step that takes a code (30_encoding.md rule R64, 46_dispatcher.md rule R164), and the response packet
(30_encoding.md rule R62).
-/
namespace Sys2Proof.Machine

theorem step_of_uop {s : State} {c : Byte} {i : Instr} (hwf : s.cfg.wf = true) (huop : s.uop = some c)
    (hdecode : decode s.cfg.addrW (.uop c) = .ok i) : step s = exec i { s with uop := none } := by
  simp [step, hwf, fetch, huop, fetchUop, hdecode]

theorem step_of_reserved_uop {s : State} {c : Byte} {d : DecodeError} (hwf : s.cfg.wf = true) (huop : s.uop = some c)
    (hdecode : decode s.cfg.addrW (.uop c) = .error d) : step s = .refused (.reservedUop c) := by
  simp [step, hwf, fetch, huop, fetchUop, hdecode]

theorem step_of_request {s : State} {p : Nat} {rest : List Event} {i : Instr} (hwf : s.cfg.wf = true)
    (huop : s.uop = none) (hevents : s.events = .request p :: rest) (hdecode : decode s.cfg.addrW (.req p) = .ok i) :
    step s = exec i { s with events := rest } := by
  simp [step, hwf, fetch, huop, hevents, fetchEvent, fetchRequest, hdecode]

/-- Settles O5, by the two places a step takes an instruction from. -/
theorem stepRunsTheDecodedInstruction : Obligations.StepRunsTheDecodedInstruction :=
  ⟨fun _ _ _ => step_of_uop, fun _ _ _ _ => step_of_request⟩

/-- Settles O7: no row of the table has the code. -/
theorem reservedOperationCodeIsRefused : Obligations.ReservedOperationCodeIsRefused :=
  fun _ _ hwf huop hreserved => step_of_reserved_uop hwf huop (decodeUop_of_reservedCode hreserved)

/-- Settles O8: the status code is the low part of the packet, the value the part above it. -/
theorem responsePacketLayout : Obligations.ResponsePacketLayout := by
  intro r
  refine ⟨?_, BitVec.extractLsb'_append_eq_left⟩
  rw [Response.encode, BitVec.extractLsb'_append_eq_right]
  cases r.status <;> rfl

end Sys2Proof.Machine
end

section
/-!
SUPPORT. `MATVEC` and `MATSQ` run alone (40_gf2_matrix.md rules R80 to R83).
-/
namespace Sys2Proof.Machine

/-- The loop of `MATVEC` after `n` turns, as a fold over the rows in order (rule R81). -/
theorem matvecUpTo_eq_foldl (mat : Mat) (vec : Word) (n : Nat) :
    matvecUpTo mat vec n =
      (List.range n).foldl (fun sum i => if vec.getLsbD i then sum ^^^ matRow mat i else sum) 0 := by
  induction n with
  | zero => rfl
  | succ n ih => rw [matvecUpTo, ih, List.range_succ, List.foldl_concat]

theorem matvec_zero (mat : Mat) : matvec mat 0 = 0 := matvecUpTo_zero mat 32

theorem exec_matvec_of_built {s : State} (hbuilt : s.cfg.tableSrc = .built) :
    exec .matvec s = .next { s with result := matvec (s.mat s.port.mat) s.port.vec } :=
  withBuilder_eq_next.mpr ⟨hbuilt, rfl⟩

theorem exec_matsq_of_built {s : State} (hbuilt : s.cfg.tableSrc = .built) :
    exec .matsq s = .next (s.matsq s.port.mat) :=
  withBuilder_eq_next.mpr ⟨hbuilt, rfl⟩

/-- Settles O33: the loop of `MATVEC` is the fold over all 32 rows. -/
theorem matvecSelectsRows : Obligations.MatvecSelectsRows := by
  intro s hbuilt
  rw [exec_matvec_of_built hbuilt, matvec, matvecUpTo_eq_foldl]

/-- Settles O34: each part is a fact about the loop of `MATVEC`, proved by induction on its turns. -/
theorem matvecIsLinear : Obligations.MatvecIsLinear :=
  fun mat => ⟨matvec_xor mat, matvec_zero mat, matvec_unit mat⟩

/-- Settles O35: `matsqOf` of the source is the matrix written. Its map is the source's applied twice, since linear maps
that agree on the basis vectors are equal (`standsFor_matsq`). -/
theorem matsqAppliesTheMapTwice : Obligations.MatsqAppliesTheMapTwice := by
  intro s hbuilt
  have hsquare : StandsFor (matsqOf (s.mat s.port.mat))
      (fun v => matvec (s.mat s.port.mat) (matvec (s.mat s.port.mat) v)) :=
    standsFor_matsq fun _ => rfl
  exact ⟨matsqOf (s.mat s.port.mat), exec_matsq_of_built hbuilt, matRow_matsqOf _, hsquare⟩

end Sys2Proof.Machine
end

section
/-!
SUPPORT. `OP1BIT` and `ZEROS_OP` run alone (41_shift_operator.md rules R91 to R96).
-/
namespace Sys2Proof.Machine

/-- A builder operation runs where the builders exist, whatever it answers (rule R30). -/
theorem withBuilder_of_built {s : State} (hbuilt : s.cfg.tableSrc = .built) (k : Result) : withBuilder s k = k := by
  simp [withBuilder, hbuilt]

theorem exec_op1bit_of_built {s : State} (hbuilt : s.cfg.tableSrc = .built) :
    exec .op1bit s = .next (s.setMat s.port.mat op1Mat) :=
  withBuilder_of_built hbuilt _

theorem exec_zerosOp_of_built {s : State} (hbuilt : s.cfg.tableSrc = .built) :
    exec .zerosOp s =
      if s.port.zeros = 0 then .refused .zeroLengthOperator else .next (s.zerosOp s.port.zeros) :=
  withBuilder_of_built hbuilt _

/-- `ZEROS_OP` changes the two buffers and the name of one (rule R92), with what it leaves there named. -/
theorem zerosOp_eq (s : State) (len : Nat) :
    s.zerosOp len =
      { s with even := (s.zerosOp len).even, odd := (s.zerosOp len).odd, opMat := (s.zerosOp len).opMat } := by
  obtain ⟨_, _, _, hframe⟩ := zerosOp_frame s len
  rw [hframe]

/-- For a power of two, `ZEROS_OP` returns the operator for that many zero bytes (rule R95). -/
theorem zerosOp_standsFor_of_two_pow (s : State) {len k : Nat} (hlen : len = 2 ^ k) :
    StandsFor ((s.zerosOp len).mat (s.zerosOp len).opMat) (fun v => zn v len) := by
  have hlog : 2 ^ Nat.log2 len = len := by rw [hlen, Nat.log2_two_pow]
  have hone : 1 ≤ len := hlen ▸ Nat.one_le_two_pow
  simpa only [hlog] using zerosOp_standsFor s len hone

/-- Settles O36: the matrix written is `OP1`. It stands for `BitStep`, since both maps are linear and agree on the basis
vectors (`standsFor_op1`). -/
theorem op1bitIsBitStep : Obligations.Op1bitIsBitStep := by
  intro s hbuilt
  have hrow0 : matRow op1Mat 0 = 0x82F63B78 := matRow_op1Mat 0 (by decide)
  have hrows : ∀ n, 1 ≤ n → n < 32 → matRow op1Mat n = (1 : Word) <<< (n - 1) := fun n hpos hlt => by
    rw [matRow_op1Mat n hlt, if_neg (by omega)]
  exact ⟨op1Mat, exec_op1bit_of_built hbuilt, hrow0, hrows, standsFor_op1⟩

/-- Settles O37: each squaring doubles the number of zero bits that the buffer appends, one squaring for each halving of
the length (`zerosLoop_standsFor`). -/
theorem zerosOpAppendsZeroBytes : Obligations.ZerosOpAppendsZeroBytes := by
  intro s hbuilt hlen
  have hrun : exec .zerosOp s = .next (s.zerosOp s.port.zeros) := by
    rw [exec_zerosOp_of_built hbuilt, if_neg (by omega)]
  exact ⟨s.zerosOp s.port.zeros, hrun, zerosOp_eq s _, zerosOp_standsFor s _ hlen,
    fun _ hpow => zerosOp_standsFor_of_two_pow s hpow⟩

/-- Settles O38, by the first branch of `ZEROS_OP`. -/
theorem zerosOpOfZeroIsRefused : Obligations.ZerosOpOfZeroIsRefused := by
  intro s hbuilt hzero
  rw [exec_zerosOp_of_built hbuilt, if_pos hzero]

end Sys2Proof.Machine
end

section
/-!
SUPPORT. The shift tables (42_shift_table.md rules R101 to R105): `SHTAB_BUILD` and `SHIFT_APPLY` run alone, and the tables
that `INIT` builds (46_dispatcher.md rule R162).
-/
namespace Sys2Proof.Machine

theorem initTables_of_built {s : State} (hbuilt : s.cfg.tableSrc = .built) : s.initTables = s.buildTables := by
  simp only [State.initTables, hbuilt]

/-- The `INIT` that leaves mode `Uninitialized` (rule R162). -/
theorem exec_init_of_uninitialized {s : State} (hmode : s.mode = .uninitialized) :
    exec .init s = .next ({ s.initTables with hwcap := s.hwcapIn, mode := .ready }.respond .ok 0) := by
  simp only [exec, execInit, hmode]

theorem exec_shtabBuild_of_built {s : State} (t : TableSel) (hbuilt : s.cfg.tableSrc = .built)
    (hmode : s.mode = .uninitialized) : exec (.shtabBuild t) s = .next (s.shtabBuild t) :=
  withTableWrite_eq_next.mpr ⟨hbuilt, hmode, rfl⟩

/-- The lookups of `SHIFT_APPLY`, as a fold over the bytes of the operand in order (rule R104). -/
theorem shiftApply_eq_foldl (tab : Table 4) (c : Word) :
    shiftApply tab c = (List.range 4).foldl (fun sum k => sum ^^^ entry tab k (byteOf c k)) 0 := by
  simp [shiftApply, List.range_succ]

/-- With the tables built, `SHIFT_APPLY` appends as many zero bytes as one stream has (rules R31, R104). -/
theorem shiftApply_of_tablesBuilt {s : State} (h : s.TablesBuilt) (t : TableSel) (c : Word) :
    shiftApply (s.shiftTable t) c = zn c (s.cfg.streamLen t) := by
  obtain ⟨-, hlong, hshort⟩ := h
  cases t with
  | long => exact shiftApply_of_entries s.lt s.cfg.long hlong c
  | short => exact shiftApply_of_entries s.st s.cfg.short hshort c

/-- Appending `len` zero bytes `n` times appends `n * len` of them (rule R14). -/
theorem zn_iterate (len n : Nat) (c : Word) : (fun v => zn v len)^[n] c = zn c (n * len) := by
  induction n with
  | zero => rw [Nat.zero_mul]; rfl
  | succ n ih => rw [Function.iterate_succ_apply', ih, Nat.succ_mul, zn_add]

/-- Settles O22: `INIT` runs the three builds. They leave the closed forms (`buildTables_tablesBuilt`) and change nothing but
the tables, the two matrix buffers and the name of one (`buildTables_frame`). -/
theorem initBuildsTheTables : Obligations.InitBuildsTheTables := by
  intro s hwf hmode hbuilt
  have hrun := exec_init_of_uninitialized hmode
  rw [initTables_of_built hbuilt] at hrun
  refine ⟨_, hrun, buildTables_tablesBuilt hwf, ?_⟩
  rw [buildTables_frame s]
  rfl

/-- Settles O43: the result is the fold of the four lookups, and the closed form of the table makes it `Zn`. -/
theorem shiftApplyAppendsZeroBytes : Obligations.ShiftApplyAppendsZeroBytes :=
  fun s t => ⟨shiftApply (s.shiftTable t) s.port.vec, rfl, shiftApply_eq_foldl _ _,
    fun hbuilt => shiftApply_of_tablesBuilt hbuilt t s.port.vec⟩

/-- Settles O44: both sides append `LONG` zero bytes, `SHORT` at a time on the left, since `SHORT` divides `LONG`
(rule R9). -/
theorem shortTableIteratedIsTheLongTable : Obligations.ShortTableIteratedIsTheLongTable := by
  intro s c hwf hbuilt
  obtain ⟨hdvd, -, -⟩ := wf_divides s.cfg hwf
  have hshort : shiftApply s.st = fun v => zn v s.cfg.short :=
    funext (shiftApply_of_tablesBuilt hbuilt .short)
  have hlong : shiftApply s.lt c = zn c s.cfg.long := shiftApply_of_tablesBuilt hbuilt .long c
  rw [hshort, hlong, zn_iterate, Nat.div_mul_cancel hdvd]

/-- Settles O39: the table written is `shtabOf` of the operator, whose entries are `entry_shtabOf`. -/
theorem shtabBuildPlacesEveryByte : Obligations.ShtabBuildPlacesEveryByte :=
  fun s t hbuilt hmode => ⟨shtabOf (s.mat s.opMat), exec_shtabBuild_of_built t hbuilt hmode,
    entry_shtabOf (s.mat s.opMat)⟩

end Sys2Proof.Machine
end

section
/-!
SUPPORT. The value table (43_value_table.md rules R111 to R114): `VT_ROW0`, `VT_ROWK` and `VT_BUILD` run alone.
-/
namespace Sys2Proof.Machine

theorem exec_vtRow0_of_built {s : State} (hbuilt : s.cfg.tableSrc = .built) (hmode : s.mode = .uninitialized) :
    exec .vtRow0 s = .next { s with vt := vtRow0 s.vt } :=
  withTableWrite_eq_next.mpr ⟨hbuilt, hmode, rfl⟩

theorem exec_vtRowk_of_built {s : State} (hbuilt : s.cfg.tableSrc = .built) (hmode : s.mode = .uninitialized) :
    exec .vtRowk s = .next { s with vt := vtRowk s.vt s.port.rowIndex } :=
  withTableWrite_eq_next.mpr ⟨hbuilt, hmode, rfl⟩

theorem exec_vtBuild_of_built {s : State} (hbuilt : s.cfg.tableSrc = .built) (hmode : s.mode = .uninitialized) :
    exec .vtBuild s = .next { s with vt := vtBuild s.vt } :=
  withTableWrite_eq_next.mpr ⟨hbuilt, hmode, rfl⟩

/-- The latch of `VT_ROWK` names a row of the table (rule R112). -/
theorem OpPort.rowIndex_lt (p : OpPort) : p.rowIndex < 16 :=
  Nat.succ_lt_succ p.row.isLt

/-- The byte that rule R112 masks out of a word is the word's lowest byte. -/
theorem setWidth_and_ff_eq_byteOf (v : Word) : (v &&& 0xFF).setWidth 8 = byteOf v 0 := by
  have hmask : (0xFF : Word).setWidth 8 = BitVec.allOnes 8 := by decide
  rw [BitVec.setWidth_and, hmask, BitVec.and_allOnes, BitVec.setWidth_eq_extractLsb' (by decide)]
  rfl

/-- Row 0 after `VT_ROW0`: each byte folded into state zero (rule R111). -/
theorem entry_vtRow0_zero (vt : Table 16) (n : Byte) : entry (vtRow0 vt) 0 n = byteFoldSpec 0 n := by
  have hzero : 0 ^^^ zext n = zext n := BitVec.zero_xor
  rw [entry_vtRow0 vt 0 n (by decide), if_pos rfl, byteFoldSpec, hzero]

theorem entry_vtRow0_of_ne (vt : Table 16) {k : Nat} (n : Byte) (hk : k < 16) (hne : k ≠ 0) :
    entry (vtRow0 vt) k n = entry vt k n := by
  rw [entry_vtRow0 vt k n hk, if_neg hne]

/-- Row `k` after `VT_ROWK(k)`, with the byte that selects from row 0 masked out as rule R112 writes it. -/
theorem entry_vtRowk_same (vt : Table 16) {k : Nat} (n : Byte) (hk : k < 16) :
    entry (vtRowk vt k) k n =
      entry vt 0 ((entry vt (k - 1) n &&& 0xFF).setWidth 8) ^^^ (entry vt (k - 1) n >>> 8) := by
  rw [entry_vtRowk vt k k n hk, if_pos rfl, setWidth_and_ff_eq_byteOf]

theorem entry_vtRowk_of_ne (vt : Table 16) {k i : Nat} (n : Byte) (hi : i < 16) (hne : i ≠ k) :
    entry (vtRowk vt k) i n = entry vt i n := by
  rw [entry_vtRowk vt k i n hi, if_neg hne]

/-- Settles O41: the tables written are `vtRow0` and `vtRowk` of the table held, read in the row written and in every
other row. -/
theorem valueTableRows : Obligations.ValueTableRows := by
  refine ⟨fun s hbuilt hmode => ?_, fun s hbuilt hmode => ?_⟩
  · exact ⟨vtRow0 s.vt, exec_vtRow0_of_built hbuilt hmode, entry_vtRow0_zero s.vt,
      fun _ n hpos hlt => entry_vtRow0_of_ne s.vt n hlt (Nat.pos_iff_ne_zero.mp hpos)⟩
  · exact ⟨vtRowk s.vt s.port.rowIndex, exec_vtRowk_of_built hbuilt hmode,
      fun n => entry_vtRowk_same s.vt n s.port.rowIndex_lt, fun _ n hlt hne => entry_vtRowk_of_ne s.vt n hlt hne⟩

/-- Settles O42: each row is the one before it with one more zero byte appended (`vtBuild_entry`). -/
theorem valueTableClosedForm : Obligations.ValueTableClosedForm :=
  fun s hbuilt hmode => ⟨vtBuild s.vt, exec_vtBuild_of_built hbuilt hmode, vtBuild_entry s.vt⟩

end Sys2Proof.Machine
end

section
/-!
SUPPORT. The software engine (44_software_engine.md): `XOR_F`, `BYTE_FOLD`, `BLOCK_FOLD` and `SW_APPEND` run alone, and the
folds of either datapath where a precondition of their rule is broken.
-/
namespace Sys2Proof.Machine

/-! ## The folds within their preconditions -/

/-- `x[j]` of rule R122, of a block of the buffer. -/
theorem blockIndex_bytes (m : Memory) (crc : Word) (a : Nat) {n j : Nat} (hj : j < n) :
    blockIndex crc (m.bytes a n) j =
      if j < 4 then m.read (a + j) ^^^ crc.extractLsb' (8 * j) 8 else m.read (a + j) := by
  have hlen : j < (m.bytes a n).length := by rwa [Memory.bytes_length]
  have hread : (m.bytes a n).getD j 0 = m.read (a + j) := by
    rw [List.getD_eq_getElem _ _ hlen, Memory.bytes_getElem]
  rw [blockIndex, hread, byteOf]

/-- The first `k` lookups of rule R122 in a block of the buffer, as a fold over its bytes in order. -/
theorem blockLookups_bytes_eq_foldl (vt : Table 16) (m : Memory) (crc : Word) (a n : Nat) {k : Nat} (hk : k ≤ n) :
    blockLookups vt n crc (m.bytes a n) k =
      (List.range k).foldl (fun sum j => sum ^^^ entry vt (n - 1 - j)
        (if j < 4 then m.read (a + j) ^^^ crc.extractLsb' (8 * j) 8 else m.read (a + j))) 0 := by
  induction k with
  | zero => rfl
  | succ k ih =>
    rw [blockLookups, ih (Nat.le_of_succ_le hk), blockIndex_bytes m crc a hk, List.range_succ, List.foldl_concat]

/-- With the tables built, the lookups of a block of either width are its fold (rules R31, R122). -/
theorem blockFoldValue_of_tablesBuilt {s : State} (h : s.TablesBuilt) (n : BlockWidth) (crc : Word) (a : Nat) :
    blockFoldValue s.vt n.bytes crc (s.mem.bytes a n.bytes) = rawFold crc (s.mem.bytes a n.bytes) := by
  have hwidth : 4 ≤ n.bytes ∧ n.bytes ≤ 16 := by cases n <;> decide
  exact blockFoldValue_of_entries s.vt h.1 crc _ n.bytes hwidth.1 hwidth.2 (Memory.bytes_length _ _ _)

/-- Settles O46: `XOR_F` is the write of that value into `CRC0`, with no test before it. -/
theorem xorFComplementsTheAccumulator : Obligations.XorFComplementsTheAccumulator :=
  fun _ => rfl

/-- Settles O47: the mask of the rule selects the low byte, and row 0 of built tables folds one byte. -/
theorem byteFoldFoldsOneByte : Obligations.ByteFoldFoldsOneByte := by
  intro s hc hr
  refine ⟨byteFoldValue s.vt s.ctx.crc0 (s.mem.read s.ctx.ptr), byteFold_of_canRead hc hr, ?_, fun hb => ?_⟩
  · rw [setWidth_and_ff_eq_byteOf]
    rfl
  · exact byteFoldValue_of_entries s.vt (fun n => hb.1 0 n (by decide)) _ _

/-- Settles O48, from the lookups as a fold over the block's bytes and their value on built tables. -/
theorem blockFoldFoldsTheBlock : Obligations.BlockFoldFoldsTheBlock := by
  intro s n hc hr ha
  exact ⟨_, blockFold_of_canRead hc hr ha, blockLookups_bytes_eq_foldl s.vt s.mem s.ctx.crc0 s.ctx.ptr n.bytes le_rfl,
    fun hb => blockFoldValue_of_tablesBuilt hb n s.ctx.crc0 s.ctx.ptr⟩

/-! ## The run of datapath SW -/

/-- `SW_APPEND` of a buffer that can be read, in a legal build with the tables built (rules R127, R128). -/
theorem swAppend_of_canRead {s : State} {addr len : Nat} (crc : Word) (hwf : s.cfg.wf = true) (hb : s.TablesBuilt)
    (hc : s.CanRead addr len) :
    ∃ rs, swAppend crc addr len s = .next { s with
      ctx := { s.ctx with
        crc0 := crcOf crc (s.mem.bytes addr len), ptr := addr + len, rem := 0, phase := .idle },
      reads := s.reads ++ rs } := by
  obtain ⟨t, hrun, ht, hidle, (hcrc1 : t.ctx.crc1 = s.ctx.crc1), (hcrc2 : t.ctx.crc2 = s.ctx.crc2)⟩ :=
    runSeq_software hwf hc hb (len + 8) _ (running_loadSoftware s crc addr len) (by simp [State.load, Phase.rank]) rfl
  have hrem : t.ctx.rem = 0 := ht.post (by simp [hidle])
  have hptr : t.ctx.ptr = addr + len := by
    have := ht.tot
    omega
  have hctx : t.ctx = { s.ctx with
      crc0 := crcOf crc (s.mem.bytes addr len), ptr := addr + len, rem := 0, phase := .idle } := by
    dsimp only
    rw [← (ht.idle hidle).1, ← hptr, ← hrem, ← hidle, ← hcrc1, ← hcrc2]
  obtain ⟨c, rs, heq, -, -⟩ := ht.ex
  have hlast : t.ctx = c := by rw [heq]
  exact ⟨rs, by rw [swAppend, hrun, heq, ← hlast, hctx]⟩

/-- Settles O53, from the run of datapath SW and the return of `CRC0`. -/
theorem swAppendReturnsTheCrc : Obligations.SwAppendReturnsTheCrc := by
  intro s hwf hb hc
  obtain ⟨rs, hrun⟩ := swAppend_of_canRead s.port.crc hwf hb hc
  exact ⟨rs, andThen_eq_next.mpr ⟨_, hrun, rfl⟩⟩

/-! ## The folds outside their preconditions -/

/-- A fold past the end of the buffer leaves a free number of `ADDR_W` bits in `REM` (log entry 9). -/
theorem advance_of_lt {s : State} {n : Nat} (h : s.ctx.rem < n) :
    s.advance n = { s with
      ctx := { s.ctx with ptr := s.ctx.ptr + n, rem := freeNat s.freeCount % s.cfg.space },
      freeCount := s.freeCount + 1 } := by
  rw [State.advance, if_neg (Nat.not_le.mpr h)]

theorem setAligned_of_misaligned {s : State} {acc : AccSel} {a w : Nat} (h : a % w ≠ 0) (v : Word) :
    s.setAligned acc a w v = s.freeAcc acc := by
  rw [State.setAligned, if_neg h]

/-- What the move past `n` bytes writes, whatever `REM` counts (rule R26, log entry 9). -/
theorem advance_frame (s : State) (n : Nat) :
    ∃ r k, s.advance n = { s with ctx := { s.ctx with ptr := s.ctx.ptr + n, rem := r }, freeCount := k } ∧
      (n ≤ s.ctx.rem → r = s.ctx.rem - n) := by
  by_cases h : n ≤ s.ctx.rem
  · exact ⟨_, s.freeCount, advance_of_le h, fun _ => rfl⟩
  · exact ⟨_, _, advance_of_lt (Nat.not_le.mp h), fun hle => absurd hle h⟩

/-- What an aligned or a misaligned read writes into its accumulator (rules R122, R141, log entry 8). -/
theorem setAligned_frame (s : State) (acc : AccSel) (a w : Nat) (x : Word) :
    ∃ v k, s.setAligned acc a w x = { s with ctx := s.ctx.setAcc acc v, freeCount := k } ∧ (a % w = 0 → v = x) := by
  by_cases h : a % w = 0
  · exact ⟨x, s.freeCount, setAligned_of_aligned h, fun _ => rfl⟩
  · exact ⟨_, _, setAligned_of_misaligned h x, fun ha => absurd ha h⟩

/-- `BYTE_FOLD` past the end of the buffer (rule R121, log entry 9). -/
theorem byteFold_of_rem_zero {s : State} (hc : s.CanRead s.ctx.ptr 1) (hr : s.ctx.rem = 0) :
    byteFold s = .next { s with
      ctx := { s.ctx with
        crc0 := byteFoldValue s.vt s.ctx.crc0 (s.mem.read s.ctx.ptr), ptr := s.ctx.ptr + 1,
        rem := freeNat s.freeCount % s.cfg.space },
      reads := s.reads ++ [{ addr := s.ctx.ptr, width := 1 }], freeCount := s.freeCount + 1 } := by
  rw [byteFold, withRead_of_canRead hc, advance_of_lt (by simp [hr])]
  rfl

/-- `BLOCK_FOLD` of bytes that can be read, whatever `PTR` and `REM` are (rule R122, log entries 8, 9). -/
theorem blockFold_completes {s : State} (n : BlockWidth) (hc : s.CanRead s.ctx.ptr n.bytes) :
    ∃ v r k, blockFold n s = .next { s with
        ctx := { s.ctx with crc0 := v, ptr := s.ctx.ptr + n.bytes, rem := r },
        reads := s.reads ++ [{ addr := s.ctx.ptr, width := n.bytes }], freeCount := k } ∧
      (s.ctx.ptr % n.bytes = 0 →
        v = blockFoldValue s.vt n.bytes s.ctx.crc0 (s.mem.bytes s.ctx.ptr n.bytes)) ∧
      (n.bytes ≤ s.ctx.rem → r = s.ctx.rem - n.bytes) := by
  obtain ⟨v, j, hset, hv⟩ := setAligned_frame { s with reads := s.reads ++ [⟨s.ctx.ptr, n.bytes⟩] } .crc0 s.ctx.ptr
    n.bytes (blockFoldValue s.vt n.bytes s.ctx.crc0 (s.mem.bytes s.ctx.ptr n.bytes))
  obtain ⟨r, k, hadv, hr⟩ := advance_frame { s with
    reads := s.reads ++ [⟨s.ctx.ptr, n.bytes⟩], ctx := s.ctx.setAcc .crc0 v, freeCount := j } n.bytes
  refine ⟨v, r, k, blockFold_eq_next.mpr ⟨hc, ?_⟩, hv, hr⟩
  rw [hset]
  exact hadv.symm

/-- `WORD_STEP` at an address that is not aligned (rule R141, log entry 8). -/
theorem wordStep_of_misaligned {s : State} {w : WordWidth} {a : Nat} (acc : AccSel) (hc : s.CanRead a w.bytes)
    (ha : a % w.bytes ≠ 0) :
    wordStep w acc a s = .next ({ s with reads := s.reads ++ [(⟨a, w.bytes⟩ : Access)] }.freeAcc acc) := by
  rw [wordStep, withRead_of_canRead hc, setAligned_of_misaligned ha]

/-- `STREAM3` at a `PTR` that is not aligned (rule R145, log entry 8). -/
theorem stream3_of_misaligned {s : State} {t : TableSel} (hc : s.CanRead s.ctx.ptr (3 * s.cfg.streamLen t))
    (ha : s.ctx.ptr % s.cfg.word.bytes ≠ 0) :
    stream3 t s = .next ((({ s with
      reads := s.reads ++ streamAccesses s.ctx.ptr s.cfg.word.bytes (s.cfg.streamLen t)
        (s.cfg.streamLen t / s.cfg.word.bytes) 0 }.freeAcc .crc0).freeAcc .crc1).freeAcc .crc2) := by
  rw [stream3, withAccess_of_canRead hc]
  exact if_neg ha

/-- Settles O57: each fold from the lemma on it outside its precondition. -/
theorem foldsOutsideTheirPreconditionsComplete : Obligations.FoldsOutsideTheirPreconditionsComplete := by
  refine ⟨fun s hc hr => ?_, fun s n hc => blockFold_completes n hc, fun s w hu hc ha => ?_, fun s t hu hc ha => ?_⟩
  · exact ⟨_, Nat.mod_lt _ (Nat.two_pow_pos _), byteFold_of_rem_zero hc hr⟩
  · exact ⟨freeWord s.freeCount, withHwUnit_eq_next.mpr ⟨hu, wordStep_of_misaligned s.port.acc hc ha⟩⟩
  · exact ⟨freeWord s.freeCount, freeWord (s.freeCount + 1), freeWord (s.freeCount + 2), _,
      withHwUnit_eq_next.mpr ⟨hu, stream3_of_misaligned hc ha⟩⟩

end Sys2Proof.Machine
end

section
/-!
SUPPORT. The hardware engine (45_hardware_engine.md): `WORD_STEP`, `STREAM3`, `RECOMBINE` and `HW_APPEND` run alone, and what
is left where the unit is absent (rules R140, R165).
-/
namespace Sys2Proof.Machine

/-! ## The operations run alone -/

/-- With the tables built, the fold of a word of either width is one lookup for each byte (rules R31, R141). -/
theorem rawFold_word_of_tablesBuilt {s : State} (h : s.TablesBuilt) (w : WordWidth) (crc : Word) (a : Nat) :
    rawFold crc (s.mem.bytes a w.bytes) = blockFoldValue s.vt w.bytes crc (s.mem.bytes a w.bytes) := by
  have hwidth : 4 ≤ w.bytes ∧ w.bytes ≤ 16 := by cases w <;> decide
  exact (blockFoldValue_of_entries s.vt h.1 crc _ w.bytes hwidth.1 hwidth.2 (Memory.bytes_length _ _ _)).symm

/-- With the tables built, `RECOMBINE` shifts by one stream and XORs, twice (rules R31, R150). -/
theorem recombineValue_of_tablesBuilt {s : State} (h : s.TablesBuilt) (t : TableSel) (c : Context) :
    recombineValue (s.shiftTable t) c =
      zn (zn c.crc0 (s.cfg.streamLen t) ^^^ c.crc1) (s.cfg.streamLen t) ^^^ c.crc2 := by
  simp only [recombineValue, shiftApply_of_tablesBuilt h]

/-- Two adjacent runs of bytes, the second folded from zero (rules R15, R42). -/
theorem rawFold_bytes_add (m : Memory) (crc : Word) (a k n : Nat) :
    rawFold crc (m.bytes a (k + n)) = zn (rawFold crc (m.bytes a k)) n ^^^ rawFold 0 (m.bytes (a + k) n) := by
  rw [Memory.bytes_add, rawFold_append, rawFold_from_zero, Memory.bytes_length]

/-- Three adjacent streams of `n` bytes, the last two folded from zero (rules R145, R150). -/
theorem rawFold_three_streams (m : Memory) (crc : Word) (a n : Nat) :
    rawFold crc (m.bytes a (3 * n)) =
      zn (zn (rawFold crc (m.bytes a n)) n ^^^ rawFold 0 (m.bytes (a + n) n)) n ^^^
        rawFold 0 (m.bytes (a + 2 * n) n) := by
  rw [show 3 * n = 2 * n + n by ring, rawFold_bytes_add, two_mul, rawFold_bytes_add]

/-- Settles O49: the fold is what the operation writes, and on built tables it is the lookups of the word. -/
theorem wordStepFoldsTheWord : Obligations.WordStepFoldsTheWord := fun s w hu hc ha =>
  ⟨withHwUnit_eq_next.mpr ⟨hu, wordStep_of_canRead hc ha⟩, fun hb =>
    (rawFold_word_of_tablesBuilt hb w _ _).trans (blockLookups_bytes_eq_foldl s.vt s.mem _ _ w.bytes le_rfl)⟩

/-- Settles O50, from the loop of `STREAM3` (`stream3_folds`). -/
theorem stream3FoldsThreeStreams : Obligations.Stream3FoldsThreeStreams := by
  intro s t hwf hu hc ha
  obtain ⟨rs, hrun, hreads⟩ := stream3_folds s t hwf hc ha
  exact ⟨rs, withHwUnit_eq_next.mpr ⟨hu, hrun⟩, hreads⟩

/-- Settles O51: the value written is `recombineValue`, whose two shifts are `Zn` on built tables. -/
theorem recombineShiftsTwice : Obligations.RecombineShiftsTwice := fun s t hu =>
  ⟨recombineValue (s.shiftTable t) s.ctx, withHwUnit_eq_next.mpr ⟨hu, rfl⟩, rfl,
    fun hb => recombineValue_of_tablesBuilt hb t s.ctx⟩

/-- Settles O52: `RECOMBINE` joins the three folds that `STREAM3` left (`rawFold_three_streams`). -/
theorem roundFoldsItsBytesInOrder : Obligations.RoundFoldsItsBytesInOrder := by
  intro s t hwf hb hu hc ha
  obtain ⟨rs, hstream, -⟩ := stream3FoldsThreeStreams s t hwf hu hc ha
  refine ⟨_, andThen_eq_next.mpr ⟨_, hstream, withHwUnit_eq_next.mpr ⟨hu, rfl⟩⟩, ?_, rfl, rfl⟩
  exact (recombineValue_of_tablesBuilt hb t _).trans (rawFold_three_streams s.mem _ _ _).symm

/-! ## The run of datapath HW -/

/-- `HW_APPEND` of a buffer that can be read, in a legal build with the tables built (rules R151, R152). -/
theorem hwAppend_of_canRead {s : State} {addr len : Nat} (crc : Word) (hwf : s.cfg.wf = true) (hb : s.TablesBuilt)
    (hc : s.CanRead addr len) :
    ∃ rs c₁ c₂, hwAppend crc addr len s = .next { s with
      ctx := {
        crc0 := crcOf crc (s.mem.bytes addr len), crc1 := c₁, crc2 := c₂, ptr := addr + len, rem := 0,
        phase := .idle },
      reads := s.reads ++ rs } := by
  obtain ⟨t, hrun, ht, hidle⟩ :=
    runSeq_running hwf hc hb (len + 8) _ (running_loadHardware s crc addr len) (by simp [Phase.rank])
  obtain ⟨⟨crc0, crc1, crc2, ptr, rem, phase⟩, rs, rfl, -, -⟩ := ht.ex
  obtain rfl : phase = .idle := hidle
  obtain rfl : crc0 = crcOf crc (s.mem.bytes addr len) := (ht.idle rfl).1
  obtain rfl : rem = 0 := ht.post (by simp)
  obtain rfl : ptr = addr + len := ht.tot
  exact ⟨rs, crc1, crc2, hrun⟩

/-- Settles O54: the run of datapath HW and the return of `CRC0`; the run of datapath SW ends with the same `CRC0`. -/
theorem hwAppendReturnsTheCrc : Obligations.HwAppendReturnsTheCrc := by
  intro s hwf hb hu hc
  obtain ⟨rs, c₁, c₂, hrun⟩ := hwAppend_of_canRead s.port.crc hwf hb hc
  obtain ⟨_, hsw⟩ := swAppendReturnsTheCrc s hwf hb hc
  have hhw : exec .hwAppend s = .next (State.returnCrc0 _) :=
    withHwUnit_eq_next.mpr ⟨hu, andThen_eq_next.mpr ⟨_, hrun, rfl⟩⟩
  exact ⟨⟨rs, c₁, c₂, hhw⟩, _, _, hhw, hsw, rfl⟩

/-! ## Without the unit -/

/-- From `s` to `t` neither `CRC1` nor `CRC2` is changed (rule R120). -/
def KeepsStreams (s t : State) : Prop := t.ctx.crc1 = s.ctx.crc1 ∧ t.ctx.crc2 = s.ctx.crc2

theorem keepsStreams_of_ctx_eq {s t : State} (h : t.ctx = s.ctx) : KeepsStreams s t := by
  rw [KeepsStreams, h]
  exact ⟨rfl, rfl⟩

theorem KeepsStreams.trans {s t u : State} (h : KeepsStreams s t) (g : KeepsStreams t u) : KeepsStreams s u :=
  ⟨g.1.trans h.1, g.2.trans h.2⟩

theorem keepsStreams_advance (s : State) (n : Nat) : KeepsStreams s (s.advance n) := by
  obtain ⟨_, _, h, -⟩ := advance_frame s n
  rw [h]
  exact ⟨rfl, rfl⟩

theorem keepsStreams_setAligned_crc0 (s : State) (a w : Nat) (v : Word) :
    KeepsStreams s (s.setAligned .crc0 a w v) := by
  obtain ⟨_, _, h, -⟩ := setAligned_frame s .crc0 a w v
  rw [h]
  exact ⟨rfl, rfl⟩

theorem keepsStreams_byteFold {s t : State} (h : byteFold s = .next t) : KeepsStreams s t := by
  obtain ⟨-, rfl⟩ := byteFold_eq_next.mp h
  exact KeepsStreams.trans ⟨rfl, rfl⟩ (keepsStreams_advance _ 1)

theorem keepsStreams_blockFold {s t : State} {n : BlockWidth} (h : blockFold n s = .next t) : KeepsStreams s t := by
  obtain ⟨-, rfl⟩ := blockFold_eq_next.mp h
  have hset := keepsStreams_setAligned_crc0 { s with reads := s.reads ++ [(⟨s.ctx.ptr, n.bytes⟩ : Access)] }
    s.ctx.ptr n.bytes (blockFoldValue s.vt n.bytes s.ctx.crc0 (s.mem.bytes s.ctx.ptr n.bytes))
  exact hset.trans (keepsStreams_advance _ n.bytes)

/-- A run of datapath SW, wherever it stops (rule R120). -/
theorem keepsStreams_runSeq {fuel : Nat} : ∀ {s t : State}, s.ctx.phase.isHw = false →
    runSeq fuel s = .next t → KeepsStreams s t := by
  induction fuel with
  | zero =>
    intro s t _ h
    cases h
    exact ⟨rfl, rfl⟩
  | succ fuel ih =>
    intro s t hsw h
    rw [runSeq] at h
    split at h
    · cases h
      exact ⟨rfl, rfl⟩
    · obtain ⟨u, hu, h⟩ := andThen_eq_next.mp h
      obtain ⟨hcrc1, hcrc2, hphase⟩ := seqStep_software hsw hu
      exact KeepsStreams.trans ⟨hcrc1, hcrc2⟩ (ih hphase h)

theorem keepsStreams_swAppend {s t : State} {crc : Word} {addr len : Nat} (h : swAppend crc addr len s = .next t) :
    KeepsStreams s t :=
  keepsStreams_runSeq (s := s.load crc addr len .swPre) rfl h

/-- An `APPEND` puts the context back that it found (rule R165). -/
theorem execAppend_ctx {s t : State} {crc : Word} {addr len : Nat} (hready : s.mode = .ready)
    (h : execAppend crc addr len s = .next t) : t.ctx = s.ctx := by
  rw [execAppend, whenReady_of_ready hready] at h
  split at h
  · obtain ⟨u, -, h⟩ := andThen_eq_next.mp h
    cases h
    rfl
  · cases h
    rfl

/-- An operation of datapath HW does not answer without the unit (rule R140). -/
theorem withHwUnit_ne_next {s t : State} {k : Result} (hready : s.mode = .ready) (hcap : s.hwcap = false) :
    withHwUnit s k ≠ .next t := by
  rw [withHwUnit_of_absent hready hcap]
  exact nofun

/-- Without the unit no instruction that answers changes `CRC1` or `CRC2` of the context `ctx` (rules R120, R140, R165). -/
theorem exec_keepsStreams_of_unitless {i : Instr} {s t : State} (hready : s.mode = .ready) (hcap : s.hwcap = false)
    (h : exec i s = .next t) : KeepsStreams s t := by
  cases i with
  | init =>
    rw [exec, execInit, hready] at h
    cases h
    exact ⟨rfl, rfl⟩
  | append crc addr len => exact keepsStreams_of_ctx_eq (execAppend_ctx hready h)
  | hwavail =>
    rw [exec, execHwavail, whenReady_of_ready hready] at h
    cases h
    exact ⟨rfl, rfl⟩
  | matvec =>
    obtain ⟨-, h⟩ := withBuilder_eq_next.mp h
    cases h
    exact ⟨rfl, rfl⟩
  | matsq | op1bit =>
    obtain ⟨-, h⟩ := withBuilder_eq_next.mp h
    cases h
    exact keepsStreams_of_ctx_eq (setMat_ctx s _ _)
  | zerosOp =>
    obtain ⟨-, h⟩ := withBuilder_eq_next.mp h
    split at h
    · cases h
    · cases h
      obtain ⟨_, _, _, hframe⟩ := zerosOp_frame s s.port.zeros
      rw [hframe]
      exact ⟨rfl, rfl⟩
  | shtabBuild _ | vtRow0 | vtRowk | vtBuild =>
    obtain ⟨-, hmode, -⟩ := withTableWrite_eq_next.mp h
    exact absurd (hmode.symm.trans hready) (by decide)
  | shiftApply _ | xorF =>
    cases h
    exact ⟨rfl, rfl⟩
  | byteFold => exact keepsStreams_byteFold h
  | blockFold n => exact keepsStreams_blockFold h
  | swAppend =>
    obtain ⟨u, hrun, h⟩ := andThen_eq_next.mp h
    cases h
    have hu : KeepsStreams s u := keepsStreams_swAppend hrun
    exact hu
  | wordStep _ | stream3 _ | recombine _ | hwAppend => exact absurd h (withHwUnit_ne_next hready hcap)

/-- Settles O59: the unit is asked for before the four operations run, and what runs without it keeps `CRC1` and `CRC2`. -/
theorem withoutTheUnitNothingOfHwRuns : Obligations.WithoutTheUnitNothingOfHwRuns := by
  refine ⟨fun s hready hcap => ?_, fun s crc addr len hcap => ?_, fun i s t hready hcap h =>
    exec_keepsStreams_of_unitless hready hcap h⟩
  · have hrefused (k : Result) : withHwUnit s k = .refused .hwUnitAbsent := withHwUnit_of_absent hready hcap k
    exact ⟨fun w => hrefused _, fun t => hrefused _, fun t => hrefused _, hrefused _⟩
  · have hrun : runDatapath crc addr len s = swAppend crc addr len s := by rw [runDatapath, hcap]; rfl
    exact ⟨hrun, fun t h => keepsStreams_swAppend (hrun ▸ h)⟩

end Sys2Proof.Machine
end

section
/-!
SUPPORT. The host commands (46_dispatcher.md rules R161, R162, R170): how `INIT` and `HWAVAIL` answer in each mode, and the
moves of `MODE`, `FCODE` and `HWCAP` that an instruction can make.
-/
namespace Sys2Proof.Machine

theorem initTables_of_embedded {s : State} (hemb : s.cfg.tableSrc = .embedded) : s.initTables = s := by
  simp only [State.initTables, hemb]

theorem exec_init_of_ready {s : State} (hmode : s.mode = .ready) : exec .init s = .next (s.respond .ok 0) := by
  simp only [exec, execInit, hmode]

theorem exec_init_of_faulted {s : State} (hmode : s.mode = .faulted) :
    exec .init s = .next (s.respond .engineFaulted 0) := by
  simp only [exec, execInit, hmode]

/-- Settles O23: the branches of `INIT` that run no build. -/
theorem initWithoutBuild : Obligations.InitWithoutBuild := by
  refine ⟨fun s => exec_init_of_ready, fun s hmode hemb => ?_, fun s => exec_init_of_faulted⟩
  have hrun := exec_init_of_uninitialized hmode
  rw [initTables_of_embedded hemb] at hrun
  exact hrun

/-- Settles O24, by the test on `MODE`. -/
theorem hwavailAnswersTheFlag : Obligations.HwavailAnswersTheFlag :=
  fun _ hmode => whenReady_of_ready hmode _

/-! ## The moves of `MODE`, `FCODE` and `HWCAP` -/

/-- The control registers (rules R21 to R23). -/
def State.control (s : State) : Mode × BitVec 8 × Bool := (s.mode, s.fcode, s.hwcap)

theorem OnlyRuns.control_eq {s t : State} (h : OnlyRuns s t) : t.control = s.control := by
  rw [h.e]
  rfl

theorem setMat_control (s : State) (b : MatSel) (m : Mat) : (s.setMat b m).control = s.control := by
  cases b <;> rfl

theorem setShiftTable_control (s : State) (b : TableSel) (m : Table 4) : (s.setShiftTable b m).control = s.control := by
  cases b <;> rfl

/-- An internal operation writes no control register, in any mode (rules R22 to R24). -/
theorem exec_control_of_internal {i : Instr} {s t : State} (hi : i.isCommand = false) (h : exec i s = .next t) :
    t.control = s.control := by
  cases i with
  | init | append _ _ _ | hwavail => cases hi
  | matvec =>
    obtain ⟨-, h⟩ := withBuilder_eq_next.mp h
    cases h
    rfl
  | matsq | op1bit =>
    obtain ⟨-, h⟩ := withBuilder_eq_next.mp h
    cases h
    exact setMat_control _ _ _
  | zerosOp =>
    obtain ⟨-, h⟩ := withBuilder_eq_next.mp h
    split at h
    · cases h
    · cases h
      obtain ⟨_, _, _, hframe⟩ := zerosOp_frame s s.port.zeros
      rw [hframe]
      rfl
  | shtabBuild b =>
    obtain ⟨-, -, h⟩ := withTableWrite_eq_next.mp h
    cases h
    exact setShiftTable_control _ _ _
  | vtRow0 | vtRowk | vtBuild =>
    obtain ⟨-, -, h⟩ := withTableWrite_eq_next.mp h
    cases h
    rfl
  | shiftApply b | xorF =>
    cases h
    rfl
  | byteFold => exact (onlyRuns_byteFold h).control_eq
  | blockFold n => exact (onlyRuns_blockFold h).control_eq
  | wordStep w =>
    obtain ⟨-, h⟩ := withHwUnit_eq_next.mp h
    exact (onlyRuns_wordStep h).control_eq
  | stream3 b =>
    obtain ⟨-, h⟩ := withHwUnit_eq_next.mp h
    exact (onlyRuns_stream3 h).control_eq
  | recombine b =>
    obtain ⟨-, h⟩ := withHwUnit_eq_next.mp h
    cases h
    rfl
  | swAppend =>
    obtain ⟨u, hrun, h⟩ := andThen_eq_next.mp h
    cases h
    exact (onlyRuns_swAppend hrun).control_eq
  | hwAppend =>
    obtain ⟨-, h⟩ := withHwUnit_eq_next.mp h
    obtain ⟨u, hrun, h⟩ := andThen_eq_next.mp h
    cases h
    exact (onlyRuns_hwAppend hrun).control_eq

/-- `INIT` writes the mode and the flag where it leaves mode `Uninitialized`, and only there (rules R161, R162). -/
theorem execInit_control {s t : State} (h : execInit s = .next t) :
    t.control = s.control ∨ s.mode = .uninitialized ∧ t.control = (.ready, s.fcode, s.hwcapIn) := by
  unfold execInit at h
  split at h
  · cases h
    exact .inl rfl
  · cases h
    exact .inl rfl
  · next hmode =>
    cases h
    obtain ⟨_, _, _, _, _, _, hinit⟩ := initTables_frame s
    rw [hinit]
    exact .inr ⟨hmode, rfl⟩

/-- Behind the test on `MODE` (rule R164) the one move is the fatal fault (rule R182), if the command itself makes none. -/
theorem whenReady_control {s t : State} {k : Result} (h : whenReady s k = .next t)
    (hk : k = .next t → t.control = s.control) :
    t.control = s.control ∨ s.mode = .uninitialized ∧ t.control = (.faulted, 0x01, s.hwcap) := by
  obtain ⟨-, hw⟩ | ⟨hmode, hw⟩ | ⟨-, hw⟩ := whenReady_cases s k <;> rw [hw] at h
  · cases h
    exact .inl rfl
  · cases h
    exact .inr ⟨hmode, rfl⟩
  · exact .inl (hk h)

theorem execAppend_control {s t : State} {crc : Word} {addr len : Nat} (h : execAppend crc addr len s = .next t) :
    t.control = s.control ∨ s.mode = .uninitialized ∧ t.control = (.faulted, 0x01, s.hwcap) := by
  refine whenReady_control h fun h => ?_
  split at h
  · obtain ⟨u, hrun, h⟩ := andThen_eq_next.mp h
    cases h
    have hruns : OnlyRuns s { u with ctx := s.ctx } := (onlyRuns_runDatapath hrun).withCtx
    exact hruns.control_eq
  · cases h
    rfl

theorem execHwavail_control {s t : State} (h : execHwavail s = .next t) :
    t.control = s.control ∨ s.mode = .uninitialized ∧ t.control = (.faulted, 0x01, s.hwcap) := by
  refine whenReady_control h fun h => ?_
  cases h
  rfl

/-- The transitions of an instruction (rules R161, R182). -/
theorem exec_control {i : Instr} {s t : State} (h : exec i s = .next t) :
    t.control = s.control ∨
    (s.mode = .uninitialized ∧ i = .init ∧ t.control = (.ready, s.fcode, s.hwcapIn)) ∨
    (s.mode = .uninitialized ∧ (i = .hwavail ∨ ∃ crc addr len, i = .append crc addr len) ∧
      t.control = (.faulted, 0x01, s.hwcap)) := by
  cases hi : i.isCommand with
  | false => exact .inl (exec_control_of_internal hi h)
  | true =>
    cases i with
    | init => exact (execInit_control h).imp_right fun ⟨hmode, ht⟩ => .inl ⟨hmode, rfl, ht⟩
    | append crc addr len =>
      exact (execAppend_control h).imp_right fun ⟨hmode, ht⟩ => .inr ⟨hmode, .inr ⟨crc, addr, len, rfl⟩, ht⟩
    | hwavail => exact (execHwavail_control h).imp_right fun ⟨hmode, ht⟩ => .inr ⟨hmode, .inl rfl, ht⟩
    | _ => cases hi

/-- Settles O13, by the transitions of the three control registers together. -/
theorem modeMovesOnlyAsTabled : Obligations.ModeMovesOnlyAsTabled := by
  intro i s t h
  simpa only [State.control, Prod.mk.injEq] using exec_control h

end Sys2Proof.Machine
end

section
/-!
SUPPORT. What `APPEND` answers (46_dispatcher.md rules R166 to R169), from the one lemma on an `APPEND` that is served, and for
a buffer of no bytes from the run of either datapath on no bytes.
-/
namespace Sys2Proof.Machine

/-- Settles O25, from what an `APPEND` that is served leaves. -/
theorem appendReturnsTheCrc : Obligations.AppendReturnsTheCrc := by
  intro s crc addr len hs hc
  obtain ⟨rs, happend, -⟩ := execAppend_of_canRead crc hs hc
  exact ⟨rs, happend⟩

/-- Settles O27: each engine answers the CRC of its own buffer, and the bytes of the two buffers are the same. -/
theorem appendIsPathIndependent : Obligations.AppendIsPathIndependent := by
  intro s₁ s₂ crc addr₁ addr₂ len hs₁ hs₂ hc₁ hc₂ hbytes
  obtain ⟨t₁, hrun₁, -, -, -, hresponse₁⟩ := append_serves crc hs₁ hc₁
  obtain ⟨t₂, hrun₂, -, -, -, hresponse₂⟩ := append_serves crc hs₂ hc₂
  rw [← hbytes] at hresponse₂
  exact ⟨t₁, t₂, _, hrun₁, hrun₂, hresponse₁, hresponse₂⟩

/-! ## Chaining -/

/-- The complement on the way out of one fold is undone on the way into the next (rules R14, R169). -/
theorem crcOf_crcOf (crc : Word) (a b : List Byte) : crcOf (crcOf crc a) b = crcOf crc (a ++ b) := by
  have hstate : crcOf crc a ^^^ allOnes = rawFold (crc ^^^ allOnes) a := by simp [crcOf]
  rw [crcOf, hstate, ← rawFold_append, ← crcOf]

/-- Settles O29: the second part is answered from the memory that the first `APPEND` left as it was, and the folds of the
two parts chain. -/
theorem appendsChain : Obligations.AppendsChain := by
  intro s crc addr m n hs hc
  have hc₁ : s.CanRead addr m := CanRead.mono hc le_rfl (by omega)
  have hc₂ : s.CanRead (addr + m) n := CanRead.mono hc (by omega) (by omega)
  obtain ⟨t₁, hfirst, ht₁, hread, hmem, hresponse₁⟩ := append_serves crc hs hc₁
  obtain ⟨t₂, hsecond, -, -, -, hresponse₂⟩ := append_serves (crcOf crc (s.mem.bytes addr m)) ht₁
    (hread _ _ hc₂)
  obtain ⟨t, hwhole, -, -, -, hresponse⟩ := append_serves crc hs hc
  rw [hmem, crcOf_crcOf, ← Memory.bytes_add] at hresponse₂
  exact ⟨t₁, t₂, t, _, _, hfirst, hresponse₁, hsecond, hresponse₂, hwhole, hresponse⟩

/-! ## A buffer of no bytes -/

/-- The phases of an open run after its first `XOR_F`. -/
def Phase.Entered (p : Phase) : Prop := p ≠ .idle ∧ p ≠ .swPre ∧ p ≠ .hwPre

/-- With no byte left to read, a turn of a legal build is the last `XOR_F`, or goes on to the next phase (rules R124 to R127,
R143 to R151). -/
theorem seqStep_of_rem_zero {s : State} (hwf : s.cfg.wf = true) (hrem : s.ctx.rem = 0)
    (hentered : s.ctx.phase.Entered) :
    seqStep s = .next (s.xorF.setPhase .idle) ∨
      seqStep s = .next (s.setPhase s.ctx.phase.after) ∧ s.ctx.phase.after.Entered := by
  have hblock : ¬ s.cfg.block.bytes ≤ 0 := Nat.not_le.mpr (blockWidth_pos _)
  have hword : ¬ s.cfg.word.bytes ≤ 0 := Nat.not_le.mpr (wordWidth_pos _)
  have hlong : s.cfg.long ≠ 0 := (streamLen_pos hwf .long).ne'
  have hshort : s.cfg.short ≠ 0 := (streamLen_pos hwf .short).ne'
  unfold seqStep loopPhase
  cases hp : s.ctx.phase with
  | idle | swPre | hwPre => simp [Phase.Entered, hp] at hentered
  | swPost | hwPost => exact .inl rfl
  | swHead | swBlock | swTail | hwHead | hwLong | hwShort | hwWords | hwTail =>
    exact .inr (by simp [hrem, hblock, hword, hlong, hshort, Phase.after, Phase.Entered])

theorem runSeq_of_idle (fuel : Nat) {s : State} (hidle : s.ctx.phase = .idle) : runSeq fuel s = .next s := by
  cases fuel with
  | zero => rfl
  | succ fuel => rw [runSeq, if_pos hidle]

theorem runSeq_succ_of_next (fuel : Nat) {s t : State} (hbusy : s.ctx.phase ≠ .idle) (h : seqStep s = .next t) :
    runSeq (fuel + 1) s = runSeq fuel t := by
  rw [runSeq, if_neg hbusy, h, andThen_ok]

/-- With no byte left to read, a run of a legal build comes to its last `XOR_F` and does nothing on the way (rules R127,
R151). -/
theorem runSeq_of_rem_zero {fuel : Nat} : ∀ {s : State}, s.cfg.wf = true → s.ctx.rem = 0 → s.ctx.phase.Entered →
    s.ctx.phase.rank ≤ fuel → runSeq fuel s = .next (s.xorF.setPhase .idle) := by
  induction fuel with
  | zero => exact fun _ _ hentered hfuel => absurd (rank_eq_zero (Nat.le_zero.mp hfuel)) hentered.1
  | succ fuel ih =>
    intro s hwf hrem hentered hfuel
    obtain hlast | ⟨hnext, hafter⟩ := seqStep_of_rem_zero hwf hrem hentered
    · rw [runSeq_succ_of_next fuel hentered.1 hlast, runSeq_of_idle fuel rfl]
    · have hrank := rank_after_lt hentered.1
      have hrun := ih (s := s.setPhase s.ctx.phase.after) hwf hrem hafter (Nat.le_of_lt_succ (hrank.trans_le hfuel))
      rw [runSeq_succ_of_next fuel hentered.1 hnext, hrun]
      rfl

/-- A run on no bytes, of the datapath whose first two phases are `pre` and `head`: the complements of `CRC0` before and
after the loops cancel (rules R123, R168). -/
theorem runSeq_load_of_len_zero {s : State} (crc : Word) (addr : Nat) {pre head : Phase} (hwf : s.cfg.wf = true)
    (hbusy : pre ≠ .idle)
    (hpre : seqStep (s.load crc addr 0 pre) = .next ((s.load crc addr 0 pre).xorF.setPhase head))
    (hhead : head.Entered) (hrank : head.rank ≤ 7) :
    runSeq 8 (s.load crc addr 0 pre) = .next { s with
      ctx := { s.ctx with crc0 := crc, ptr := addr, rem := 0, phase := .idle } } := by
  have hcancel : crc ^^^ allOnes ^^^ allOnes = crc := by rw [BitVec.xor_assoc, BitVec.xor_self, BitVec.xor_zero]
  rw [runSeq_succ_of_next 7 hbusy hpre,
    runSeq_of_rem_zero (s := (s.load crc addr 0 pre).xorF.setPhase head) hwf rfl hhead hrank]
  simp [State.xorF, State.setAcc, Context.setAcc, State.setPhase, State.load, hcancel]

theorem runDatapath_of_len_zero {s : State} (crc : Word) (addr : Nat) (hwf : s.cfg.wf = true) :
    runDatapath crc addr 0 s = .next { s with
      ctx := { s.ctx with crc0 := crc, ptr := addr, rem := 0, phase := .idle } } := by
  unfold runDatapath
  split
  · exact runSeq_load_of_len_zero (head := .hwHead) crc addr hwf (by decide) rfl (by simp [Phase.Entered]) (by decide)
  · exact runSeq_load_of_len_zero (head := .swHead) crc addr hwf (by decide) rfl (by simp [Phase.Entered]) (by decide)

/-- Settles O28, from the run of either datapath on no bytes. -/
theorem appendOfNothingReturnsItsAccumulator : Obligations.AppendOfNothingReturnsItsAccumulator := by
  intro s crc addr hwf hready haddr
  have hrange : s.inRange addr 0 = true := decide_eq_true haddr
  rw [exec, execAppend, whenReady_of_ready hready, if_pos hrange,
    runDatapath_of_len_zero (s := { s with ctx := .fresh }) crc addr hwf, andThen_ok]
  rfl

end Sys2Proof.Machine
end

section
/-!
SUPPORT. The answer to a request (46_dispatcher.md rule R164, 60_exceptions.md rule R188): that an `APPEND` of a buffer that is
backed comes to its end whatever the tables hold, and the status of each kind of request.
-/
namespace Sys2Proof.Machine

/-! ## A run over a buffer that can be read -/

theorem loopPhase_answers {s : State} {test : Bool} {body : State → Result} {after : Phase} {n : Nat}
    (hc : s.CanRead s.ctx.ptr s.ctx.rem) (hn : test = true → n ≤ s.ctx.rem)
    (hbody : s.CanRead s.ctx.ptr n → ∃ t, body s = .next t) : ∃ t, loopPhase s test body after = .next t := by
  unfold loopPhase
  split
  · next htest => exact hbody (CanRead.mono hc le_rfl (Nat.add_le_add_left (hn htest) _))
  · exact ⟨_, rfl⟩

theorem byteFold_answers {s : State} (h : s.CanRead s.ctx.ptr 1) : ∃ t, byteFold s = .next t :=
  ⟨_, byteFold_eq_next.mpr ⟨h, rfl⟩⟩

theorem blockFold_answers {s : State} {n : BlockWidth} (h : s.CanRead s.ctx.ptr n.bytes) :
    ∃ t, blockFold n s = .next t :=
  ⟨_, blockFold_eq_next.mpr ⟨h, rfl⟩⟩

theorem wordRound_answers {s : State} (h : s.CanRead s.ctx.ptr s.cfg.word.bytes) : ∃ t, wordRound s = .next t :=
  ⟨_, andThen_eq_next.mpr ⟨_, wordStep_eq_next.mpr ⟨h, rfl⟩, rfl⟩⟩

theorem streamRound_answers {s : State} (b : TableSel) (h : s.CanRead s.ctx.ptr (3 * s.cfg.streamLen b)) :
    ∃ t, streamRound b s = .next t := by
  obtain ⟨u, hu⟩ := stream3_answered h
  exact ⟨_, andThen_eq_next.mpr ⟨u, hu, rfl⟩⟩

/-- While the bytes that `REM` counts can be read, every turn of the sequencer has a next state (rules R43, R49). -/
theorem seqStep_answers {s : State} (hc : s.CanRead s.ctx.ptr s.ctx.rem) : ∃ t, seqStep s = .next t := by
  have hhead {b : Bool} (h : (decide (0 < s.ctx.rem) && b) = true) : 1 ≤ s.ctx.rem :=
    of_decide_eq_true (Bool.and_eq_true_iff.mp h).1
  unfold seqStep
  cases s.ctx.phase with
  | idle | swPre | swPost | hwPre | hwPost => exact ⟨_, rfl⟩
  | swHead | hwHead => exact loopPhase_answers hc hhead byteFold_answers
  | swTail | hwTail => exact loopPhase_answers hc of_decide_eq_true byteFold_answers
  | swBlock => exact loopPhase_answers hc of_decide_eq_true blockFold_answers
  | hwLong => exact loopPhase_answers hc of_decide_eq_true (streamRound_answers .long)
  | hwShort => exact loopPhase_answers hc of_decide_eq_true (streamRound_answers .short)
  | hwWords => exact loopPhase_answers hc of_decide_eq_true wordRound_answers

/-- A turn leaves of the buffer a part that can be read (rule R26). -/
theorem seqStep_keeps_canRead {s t : State} (hc : s.CanRead s.ctx.ptr s.ctx.rem) (h : seqStep s = .next t) :
    t.CanRead t.ctx.ptr t.ctx.rem := by
  obtain ⟨hconst, hrem⟩ := ptrPlusRemIsConstant s t h
  have hpart : s.CanRead t.ctx.ptr t.ctx.rem := CanRead.mono hc (by omega) hconst.le
  rw [(onlyRuns_seqStep h).e]
  exact hpart

theorem runSeq_answers {fuel : Nat} : ∀ {s : State}, s.CanRead s.ctx.ptr s.ctx.rem → ∃ t, runSeq fuel s = .next t := by
  induction fuel with
  | zero => exact fun _ => ⟨_, rfl⟩
  | succ fuel ih =>
    intro s hc
    rw [runSeq]
    split
    · exact ⟨s, rfl⟩
    · obtain ⟨u, hu⟩ := seqStep_answers hc
      rw [hu, andThen_ok]
      exact ih (seqStep_keeps_canRead hc hu)

/-- The datapath that `HWCAP` selects has a result for every buffer that can be read, whatever the tables hold. -/
theorem runDatapath_answers {s : State} (crc : Word) {addr len : Nat} (hc : s.CanRead addr len) :
    ∃ t, runDatapath crc addr len s = .next t := by
  unfold runDatapath
  split
  · exact runSeq_answers (s := s.load crc addr len .hwPre) hc
  · exact runSeq_answers (s := s.load crc addr len .swPre) hc

/-! ## The status of each kind of request -/

/-- The outcome is a next state with one response more, of this status, and the queue as it was. -/
def AnswersWith (st : Status) (s : State) (r : Result) : Prop :=
  ∃ t v, r = .next t ∧ t.events = s.events ∧ t.responses = s.responses ++ [{ status := st, value := v }]

theorem answersWith_respond (st : Status) (s : State) (v : Word) : AnswersWith st s (.next (s.respond st v)) :=
  ⟨_, v, rfl, rfl, rfl⟩

/-- In mode `Faulted` the fault comes before the reserved `op` (rules R184, R186). -/
theorem rejectRequest_answers (s : State) :
    AnswersWith (if s.mode = .faulted then .engineFaulted else .illegalCmd) s (.next s.rejectRequest) := by
  unfold State.rejectRequest
  cases s.mode with
  | uninitialized | ready => exact answersWith_respond .illegalCmd s 0
  | faulted => exact answersWith_respond .engineFaulted s 0

theorem init_answers (s : State) :
    AnswersWith (if s.mode = .faulted then .engineFaulted else .ok) s (exec .init s) := by
  cases hmode : s.mode with
  | ready => exact exec_init_of_ready hmode ▸ answersWith_respond .ok s 0
  | faulted => exact exec_init_of_faulted hmode ▸ answersWith_respond .engineFaulted s 0
  | uninitialized =>
    rw [exec_init_of_uninitialized hmode]
    obtain ⟨_, _, _, _, _, _, hinit⟩ := initTables_frame s
    rw [hinit]
    exact ⟨_, 0, rfl, rfl, rfl⟩

/-- Tests (1) and (3) come before the command's own (rules R164, R188). -/
theorem whenReady_answers {s : State} {k : Result} {st : Status} (hk : s.mode = .ready → AnswersWith st s k) :
    AnswersWith (if s.mode = .faulted then .engineFaulted else if s.mode = .uninitialized then .notInitialized
      else st) s (whenReady s k) := by
  obtain ⟨hmode, hw⟩ | ⟨hmode, hw⟩ | ⟨hmode, hw⟩ := whenReady_cases s k <;> rw [hw, hmode]
  · exact answersWith_respond .engineFaulted s 0
  · exact ⟨_, 0, rfl, rfl, rfl⟩
  · exact hk hmode

theorem hwavail_answers (s : State) :
    AnswersWith (if s.mode = .faulted then .engineFaulted else if s.mode = .uninitialized then .notInitialized
      else .ok) s (exec .hwavail s) :=
  whenReady_answers fun _ => answersWith_respond .ok s (flagWord s.hwcap)

/-- An `APPEND` of a buffer that is backed, or that passes the top of the address space (rules R165, R185). -/
theorem append_answers {s : State} (crc : Word) {addr len : Nat} (hm : s.mapped addr len = true) :
    AnswersWith (if s.mode = .faulted then .engineFaulted else if s.mode = .uninitialized then .notInitialized
      else if 2 ^ s.cfg.addrW < addr + len then .badRange else .ok) s (exec (.append crc addr len) s) := by
  refine whenReady_answers fun _ => ?_
  by_cases hrange : addr + len ≤ s.cfg.space
  · obtain ⟨t, ht⟩ := runDatapath_answers (s := { s with ctx := .fresh }) crc ⟨hrange, hm⟩
    rw [if_neg (Nat.not_lt.mpr hrange), State.inRange, decide_eq_true hrange, if_pos rfl, ht, andThen_ok,
      (onlyRuns_runDatapath ht).e]
    exact ⟨_, _, rfl, rfl, rfl⟩
  · rw [if_pos (Nat.not_le.mp hrange), State.inRange, decide_eq_false hrange]
    exact answersWith_respond .badRange s 0

/-! ## The request on the port -/

theorem step_of_reserved_request {s : State} {p : Nat} {rest : List Event} {d : DecodeError} (hwf : s.cfg.wf = true)
    (huop : s.uop = none) (hevents : s.events = .request p :: rest) (hdecode : decode s.cfg.addrW (.req p) = .error d) :
    step s = .next { s with events := rest }.rejectRequest := by
  simp [step, hwf, fetch, huop, hevents, fetchEvent, fetchRequest, hdecode]

/-- The low byte of a packet decides what it asks (rules R61, R63, R66). -/
theorem decodeReq_cases (aw p : Nat) :
    (p % 256 = 1 ∧ decodeReq aw p = .ok .init) ∨
    (p % 256 = 2 ∧ decodeReq aw p =
      .ok (.append (BitVec.ofNat 32 (packetBits p 8 32)) (packetBits p 40 aw) (packetBits p (40 + aw) aw))) ∨
    (p % 256 = 3 ∧ decodeReq aw p = .ok .hwavail) ∨
    (p % 256 ≠ 1 ∧ p % 256 ≠ 2 ∧ p % 256 ≠ 3) ∧ ∃ d, decodeReq aw p = .error d := by
  have hop : packetBits p 0 8 = p % 256 := packetBits_zero p 8
  unfold decodeReq
  rw [hop]
  split_ifs <;> simp [*]

/-- Settles O18: what the low byte asks, and the status of that. -/
theorem everyRequestGetsOneStatus : Obligations.EveryRequestGetsOneStatus := by
  intro s p rest hwf huop hevents hmapped
  change AnswersWith _ { s with events := rest } (step s)
  obtain ⟨hop, hdecode⟩ | ⟨hop, hdecode⟩ | ⟨hop, hdecode⟩ | ⟨hop, d, hdecode⟩ := decodeReq_cases s.cfg.addrW p
  · rw [step_of_request hwf huop hevents hdecode]
    simpa [hop] using init_answers { s with events := rest }
  · have hm := hmapped _ _ _ hdecode
    rw [step_of_request hwf huop hevents hdecode]
    simpa [hop] using append_answers (s := { s with events := rest }) _ hm
  · rw [step_of_request hwf huop hevents hdecode]
    simpa [hop] using hwavail_answers { s with events := rest }
  · rw [step_of_reserved_request hwf huop hevents hdecode]
    simpa [hop] using rejectRequest_answers { s with events := rest }

end Sys2Proof.Machine
end

section
/-!
SUPPORT. A step that takes an event and runs no instruction (10_state.md rule R27, 20_memory.md rules R40, R55,
60_exceptions.md rule R194), and reset among them (70_reset_and_hazards.md rule R200).
-/
namespace Sys2Proof.Machine

theorem step_of_idle {s : State} (hwf : s.cfg.wf = true) (huop : s.uop = none) (hevents : s.events = []) :
    step s = .next s := by
  simp [step, hwf, fetch, huop, hevents]

/-- An event that is no request is done with when it is taken (log entry 13). -/
theorem step_of_event {s : State} {e : Event} {rest : List Event} {r : Result} (hwf : s.cfg.wf = true)
    (huop : s.uop = none) (hevents : s.events = e :: rest) (hdone : fetchEvent e { s with events := rest } = .done r) :
    step s = r := by
  rw [huop] at hdone
  simp [step, hwf, fetch, huop, hevents, hdone]

/-- A host write is done inside the address space, and only there (rules R40, R55). -/
theorem takeHostWrite_eq_next {s t : State} {a : Nat} {b : Byte} :
    s.takeHostWrite a b = .next t ↔ a < s.cfg.space ∧ { s with mem := s.mem.write a b } = t := by
  unfold State.takeHostWrite
  split <;> simp [*]

theorem takeHostWrite_of_outside {s : State} {a : Nat} (h : s.cfg.space ≤ a) (b : Byte) :
    s.takeHostWrite a b = .fault .outsideAddressSpace :=
  if_neg (Nat.not_lt.mpr h)

/-- Settles O6: nothing is to do, or the event at the head is taken; a host write is the memory's own write. -/
theorem stepWithoutInstruction : Obligations.StepWithoutInstruction := by
  refine ⟨fun s => step_of_idle, fun s b rest hwf huop hevents => ?_, fun s a b rest hwf hmem huop hevents ha => ?_,
    fun s a b rest hwf huop hevents ha => ?_⟩
  · exact step_of_event hwf huop hevents rfl
  · have hwrite := takeHostWrite_eq_next (s := { s with events := rest }) (b := b).mpr ⟨ha, rfl⟩
    exact ⟨s.mem.write a b, (step_of_event hwf huop hevents rfl).trans hwrite, Memory.write_wf hmem a b,
      Memory.read_write_same hmem a b, fun x hx => Memory.read_write_other s.mem b hx⟩
  · have hfault := takeHostWrite_of_outside (s := { s with events := rest }) ha b
    exact (step_of_event hwf huop hevents rfl).trans hfault

/-- Settles O10, from what a reset keeps and the constants of an embedded build. -/
theorem resetIsTakenInEveryMode : Obligations.ResetIsTakenInEveryMode :=
  fun s rest hwf huop hevents => ⟨{ s with events := rest }.takeReset, step_of_event hwf huop hevents rfl,
    rfl, rfl, rfl, resetOf_tablesBuilt, rfl, rfl, rfl, rfl, rfl, rfl, rfl⟩

end Sys2Proof.Machine
end

section
/-!
SUPPORT. The exceptions (60_exceptions.md rules R182 to R189): what mode `Faulted` answers and who leaves it, the fatal fault,
the two refusals of a request, and what a command leaves alone that is not answered `OK`.
-/
namespace Sys2Proof.Machine

theorem whenReady_of_faulted {s : State} (h : s.mode = .faulted) (k : Result) :
    whenReady s k = .next (s.respond .engineFaulted 0) := by
  simp [whenReady, h]

theorem whenReady_of_uninitialized {s : State} (h : s.mode = .uninitialized) (k : Result) :
    whenReady s k = .next (s.raiseFault .notInitialized) := by
  simp [whenReady, h]

/-! ## Mode `Faulted` -/

/-- A request packet asks for a command, never for an internal operation (rules R60, R61). -/
theorem isCommand_of_decode_req {aw p : Nat} {i : Instr} (h : decode aw (.req p) = .ok i) : i.isCommand = true := by
  obtain ⟨-, hdecode⟩ | ⟨-, hdecode⟩ | ⟨-, hdecode⟩ | ⟨-, d, hdecode⟩ := decodeReq_cases aw p <;>
    cases hdecode.symm.trans h <;> rfl

theorem exec_command_of_faulted {i : Instr} {s : State} (hi : i.isCommand = true) (hmode : s.mode = .faulted) :
    exec i s = .next (s.respond .engineFaulted 0) := by
  cases i with
  | init => exact exec_init_of_faulted hmode
  | append _ _ _ | hwavail => exact whenReady_of_faulted hmode _
  | _ => cases hi

theorem rejectRequest_of_faulted {s : State} (hmode : s.mode = .faulted) :
    s.rejectRequest = s.respond .engineFaulted 0 := by
  simp only [State.rejectRequest, hmode]

/-- Every request, whether its `op` is reserved or not (rule R186). -/
theorem step_of_request_of_faulted {s : State} {p : Nat} {rest : List Event} (hwf : s.cfg.wf = true)
    (hmode : s.mode = .faulted) (huop : s.uop = none) (hevents : s.events = .request p :: rest) :
    step s = .next ({ s with events := rest }.respond .engineFaulted 0) := by
  cases hdecode : decode s.cfg.addrW (.req p) with
  | ok i =>
    rw [step_of_request hwf huop hevents hdecode]
    exact exec_command_of_faulted (isCommand_of_decode_req hdecode) hmode
  | error d =>
    rw [step_of_reserved_request hwf huop hevents hdecode]
    exact congrArg _ (rejectRequest_of_faulted hmode)

/-- The transitions of `MODE` all start in mode `Uninitialized`, but for reset (rules R161, R182, R186). -/
theorem exec_keeps_fault {i : Instr} {s t : State} (hmode : s.mode = .faulted) (h : exec i s = .next t) :
    t.mode = .faulted ∧ t.fcode = s.fcode := by
  obtain ⟨hkept, hfcode, -⟩ | ⟨hcold, -⟩ | ⟨hcold, -⟩ := modeMovesOnlyAsTabled i s t h
  · exact ⟨hkept.trans hmode, hfcode⟩
  · cases hmode.symm.trans hcold
  · cases hmode.symm.trans hcold

theorem TakesEvent.keeps_fault {e : Event} {s t : State} (hmode : s.mode = .faulted) (h : TakesEvent e s t)
    (he : e ≠ .reset) : t.mode = .faulted ∧ t.fcode = s.fcode := by
  cases h with
  | command _ hexec => exact exec_keeps_fault hmode hexec
  | reserved => exact rejectRequest_of_faulted hmode ▸ ⟨hmode, rfl⟩
  | reset => exact absurd rfl he
  | pin => exact ⟨hmode, rfl⟩
  | hostWrite hwrite =>
    obtain ⟨-, rfl⟩ := takeHostWrite_eq_next.mp hwrite
    exact ⟨hmode, rfl⟩

/-- Settles O15: a request by what it decodes to, a step by the place it takes its work from. -/
theorem faultedAnswersEveryRequestAlike : Obligations.FaultedAnswersEveryRequestAlike := by
  refine ⟨fun s p rest => step_of_request_of_faulted, fun s t hmode h => ?_⟩
  obtain ⟨-, ⟨c, i, -, -, hexec⟩ | ⟨-, -, rfl⟩ | ⟨e, rest, huop, hevents, htakes⟩⟩ := step_cases h
  · exact .inl (exec_keeps_fault (s := { s with uop := none }) hmode hexec)
  · exact .inl ⟨hmode, rfl⟩
  · by_cases he : e = .reset
    · exact .inr ⟨huop, rest, he ▸ hevents⟩
    · exact .inl (TakesEvent.keeps_fault (s := { s with events := rest }) hmode htakes he)

/-! ## The fatal fault and the refused requests -/

/-- Settles O14: both commands stand behind the test on `MODE`, which takes the fault. -/
theorem useBeforeInitIsTheFatalFault : Obligations.UseBeforeInitIsTheFatalFault :=
  fun _ hmode => ⟨fun _ _ _ => whenReady_of_uninitialized hmode _, whenReady_of_uninitialized hmode _⟩

theorem rejectRequest_of_not_faulted {s : State} (hmode : s.mode ≠ .faulted) :
    s.rejectRequest = s.respond .illegalCmd 0 := by
  unfold State.rejectRequest
  cases hm : s.mode with
  | faulted => exact absurd hm hmode
  | uninitialized | ready => rfl

/-- Settles O16: the decoder knows no other low byte, and outside mode `Faulted` the rejection is `ILLEGAL_CMD`. -/
theorem reservedOpIsIllegal : Obligations.ReservedOpIsIllegal := by
  intro s p rest hwf hmode huop hevents hinit happend hhwavail
  obtain ⟨hop, -⟩ | ⟨hop, -⟩ | ⟨hop, -⟩ | ⟨-, d, hdecode⟩ := decodeReq_cases s.cfg.addrW p
  · exact absurd hop hinit
  · exact absurd hop happend
  · exact absurd hop hhwavail
  · rw [step_of_reserved_request hwf huop hevents hdecode]
    exact congrArg _ (rejectRequest_of_not_faulted hmode)

/-- The range test comes before the datapath (rules R165, R185). -/
theorem exec_append_of_badRange {s : State} (crc : Word) {addr len : Nat} (hmode : s.mode = .ready)
    (hrange : s.cfg.space < addr + len) : exec (.append crc addr len) s = .next (s.respond .badRange 0) := by
  have houtside : s.inRange addr len = false := decide_eq_false (Nat.not_le.mpr hrange)
  rw [exec, execAppend, whenReady_of_ready hmode, houtside]
  rfl

/-- Settles O17: the test is on the sum itself, and an address of `ADDR_W` bits lies below the bound. -/
theorem badRangeIsRefused : Obligations.BadRangeIsRefused := by
  refine ⟨fun s crc addr len => exec_append_of_badRange crc, fun c crc addr hwf => ?_⟩
  have haddr : addr < c.space := of_decide_eq_true (Bool.and_eq_true_iff.mp hwf).1
  exact Nat.not_lt.mpr haddr.le

/-! ## A command that is not answered `OK` -/

/-- What a command reads, works in and builds (rule R189). -/
def State.workspace (s : State) : List Access × Context × Table 16 × Table 4 × Table 4 × Mat × Mat × Bool :=
  (s.reads, s.ctx, s.vt, s.lt, s.st, s.even, s.odd, s.hwcap)

/-- From `s` to `t` one more response is given and it is `OK`, or the workspace is untouched. -/
def OkOrUntouched (s t : State) : Prop :=
  (∃ v, t.responses = s.responses ++ [{ status := .ok, value := v }]) ∨ t.workspace = s.workspace

theorem whenReady_okOrUntouched {s t : State} {k : Result} (h : whenReady s k = .next t)
    (hk : k = .next t → OkOrUntouched s t) : OkOrUntouched s t := by
  obtain ⟨-, hw⟩ | ⟨-, hw⟩ | ⟨-, hw⟩ := whenReady_cases s k <;> rw [hw] at h
  · cases h
    exact .inr rfl
  · cases h
    exact .inr rfl
  · exact hk h

theorem execInit_okOrUntouched {s t : State} (h : execInit s = .next t) : OkOrUntouched s t := by
  unfold execInit at h
  split at h <;> cases h
  · exact .inr rfl
  · exact .inl ⟨0, rfl⟩
  · obtain ⟨_, _, _, _, _, _, hinit⟩ := initTables_frame s
    rw [hinit]
    exact .inl ⟨0, rfl⟩

/-- An `APPEND` that runs a datapath is answered `OK` at its end (rule R165). -/
theorem execAppend_okOrUntouched {s t : State} {crc : Word} {addr len : Nat} (h : execAppend crc addr len s = .next t) :
    OkOrUntouched s t := by
  refine whenReady_okOrUntouched h fun h => ?_
  split at h
  · obtain ⟨u, hrun, h⟩ := andThen_eq_next.mp h
    cases h
    rw [(onlyRuns_runDatapath hrun).e]
    exact .inl ⟨_, rfl⟩
  · cases h
    exact .inr rfl

theorem exec_command_okOrUntouched {i : Instr} {s t : State} (hi : i.isCommand = true) (h : exec i s = .next t) :
    OkOrUntouched s t := by
  cases i with
  | init => exact execInit_okOrUntouched h
  | append crc addr len => exact execAppend_okOrUntouched h
  | hwavail =>
    refine whenReady_okOrUntouched h fun h => ?_
    cases h
    exact .inr rfl
  | _ => cases hi

/-- Settles O19: the response that is `OK` is not the one that was given. -/
theorem notOkHasNoPartialEffect : Obligations.NotOkHasNoPartialEffect := by
  intro i s t st v hi h hresponse hst
  obtain ⟨w, hok⟩ | huntouched := exec_command_okOrUntouched hi h
  · obtain ⟨rfl, -⟩ : st = .ok ∧ v = w := by simpa using hresponse.symm.trans hok
    exact absurd rfl hst
  · simpa only [State.workspace, Prod.mk.injEq] using huntouched

end Sys2Proof.Machine
end
